-- ==== Sys2Proof/Word.lean ====
section
/-! DEFINITION. Word.lean: the words of the block's ports and registers, by width (spec 30_encoding.md R60, R61, R64). -/

namespace Sys2Proof

/-- The input transaction word `{op[17:16], fld[15:0]}` (R61). -/
abbrev InWord := BitVec 18

/-- The field `fld` of an input word: a raw sample, or a samplesPerBit value (R61). -/
abbrev Field := BitVec 16

/-- The output event word `{kind[9:8], data[7:0]}` (R64). -/
abbrev EventWord := BitVec 10

/-- The decoded byte of a CHAR event (R64, R103). -/
abbrev Byte := BitVec 8

/-- The ten bits of a frame; bit `k` is the frame's position `k` (R25, R100). -/
abbrev FrameWord := BitVec 10

end Sys2Proof
end

