-- ==== Sys2Proof/Config.lean ====
section
/-! DEFINITION. Config.lean: what the spec leaves OPEN about one implementation (spec 00_scope.md R6, 92_eei_decisions.md D5). -/

namespace Sys2Proof

/-- `SPB_RESET - 1`, with no body: the spec gives `SPB_RESET` no value, only its range 1 to 65535 (R6, I1; notes/assumptions/1.md).
A member of `Fin 65535` plus one is exactly a number from 1 to 65535. -/
opaque Config.spbResetLessOne : Fin 65535

/-- `SPB_RESET`, the value power-on reset loads into `cfg_spb` (R6, R160). Any legal value is possible; no statement may rest on one. -/
def Config.spbReset : BitVec 16 := BitVec.ofNat 16 (Config.spbResetLessOne.val + 1)

/-- Decision D21: the drive level `A` of the pseudo-instructions where none is written (R70). -/
def Config.defaultDrive : Nat := 16384

end Sys2Proof
end

