-- ==== Sys2Proof/Syntax.lean ====
section
/-! DEFINITION. Syntax.lean: the transactions of the opcode map (spec 30_encoding.md R62), the rows of that map, and the lines of
the trace language (R69, R70). -/

namespace Sys2Proof

/-- One constructor per row of the opcode map (R62). Each keeps the whole field `in_word[15:0]`, so that a word and its
instruction say the same (notes/assumptions/12.md). -/
inductive Instr where
  /-- `op = 0b00`: one raw sample (R84). -/
  | sample (fld : Field)
  /-- `op = 0b01`: end of stream; the field is ignored (R121, R63). -/
  | eos (fld : Field)
  /-- `op = 0b10`: start a new stream; the field is the new samplesPerBit, or 0 to keep it (R122). -/
  | clear (fld : Field)
  /-- `op = 0b11`: reserved, not an instruction (R65). -/
  | reserved (fld : Field)
deriving DecidableEq, Repr

/-- One row of the opcode map: a word `w` is of the row when `w` and `mask` together give `pattern` (R62). -/
structure OpcodeRow where
  mnemonic : String
  pattern : InWord
  mask : InWord
deriving DecidableEq, Repr

/-- Why a number is not an input word. -/
inductive DecodeReject where
  /-- The number does not fit the 18 bits of `in_word` (R60, R61). -/
  | widerThanPort
deriving DecidableEq, Repr

/-- One line of an input program in the trace language: the base transactions of R69 and the pseudo-instructions of R70.
`drive` is the suffix `@A`; where it is absent the default stands. -/
inductive TraceLine where
  | sample (v : Int)
  | eos
  | clear (n : Option Nat)
  | level (v : Int) (n : Nat)
  | bit (b : Bool) (drive : Option Nat)
  | frameBits (bs : List Bool) (drive : Option Nat)
  | frame (x : Nat) (drive : Option Nat)
  | msg (text : List Nat) (drive : Option Nat)
deriving DecidableEq, Repr

/-- A token of a trace line: a bare word, a quoted text, or one of the marks `[`, `]`, `,`. -/
inductive TraceToken where
  | word (cs : List Char)
  | quoted (cs : List Char)
  | mark (c : Char)
deriving DecidableEq, Repr

end Sys2Proof
end

