-- ==== Sys2Proof/Machine/State.lean ====
section
/-! DEFINITION. Machine/State.lean: the state of the block (spec 10_state.md R20 to R28, R33), the values its fields take, the
state after power-on reset (70_reset_and_hazards.md R160), and the reasons a step can stop. -/

namespace Sys2Proof.Machine

/-- The phase register's three values (R22). The fourth code 0b11 "is not a state of the block", so it has no constructor. -/
inductive Phase where
  | run
  | done
  | err
deriving DecidableEq, Repr

/-- The error register's three values (R27, R66). The fourth code 0b11 is "reserved and never written". -/
inductive ErrCode where
  | none
  | start
  | stop
deriving DecidableEq, Repr

/-- The two exceptions of the block, the `k` of FrameError (R140 to R142). -/
inductive FrameErr where
  /-- StartBitError, "Invalid start bit". -/
  | start
  /-- StopBitError, "Invalid stop bit". -/
  | stop
deriving DecidableEq, Repr

/-- An output event (R64). -/
inductive OutputEvent where
  | char (b : Byte)
  | errStart
  | errStop
  | done
deriving DecidableEq, Repr

/-- What the upstream host drives on the three input ports in one presentation (R60). -/
structure InputPins where
  rst : Bool
  inValid : Bool
  inWord : InWord
deriving DecidableEq, Repr

/-- The state: the block's eight registers (R20), the model-only `out` and `refused` of R33, and `input`, what the host will
drive on the input ports, oldest first (notes/assumptions/2.md). -/
structure State where
  /-- `cfg_spb`: samples in one bit window (R21). -/
  cfgSpb : BitVec 16
  /-- `phase` (R22). -/
  phase : Phase
  /-- `err` (R27). -/
  err : ErrCode
  /-- `acc`: the sum of the current window's samples, 32 bits, two's complement (R23). -/
  acc : BitVec 32
  /-- `scnt`: the samples received in the current window (R24). -/
  scnt : BitVec 16
  /-- `fbits`: the bits of the frame being collected (R25). -/
  fbits : FrameWord
  /-- `bcnt`: how many bits of it are collected (R26). -/
  bcnt : BitVec 4
  /-- `chars`: the CHAR events since the last CLEAR or reset, modulo 2^32 (R28). -/
  chars : BitVec 32
  /-- `out`: the events emitted since power-on, later ones at the end (R33). -/
  out : List OutputEvent
  /-- `refused`: the mark a reserved transaction sets (R33, R65). -/
  refused : Bool
  /-- What the host will drive on `rst`, `in_valid` and `in_word`, oldest first. -/
  input : List InputPins
deriving DecidableEq, Repr

/-- Why the machine stops with a fault: never. The block's two exceptions are states of it (phase ERR, R142) and every presented
transaction completes its step (R164), so there is no constructor. -/
inductive Fault where
deriving DecidableEq, Repr

/-- Why a step has no meaning. -/
inductive Refusal where
  /-- Raised by a refused arm of exec, for an instruction that has no meaning yet; no arm raises it. Safe. -/
  | notModelled (mnemonic : String)
  /-- Raised by the reserved transaction: the spec "gives it no behaviour" and the model refuses it (R65). `marked` is the state with
  its `refused` mark set; it says nothing of the hardware's registers afterwards (notes/assumptions/4.md). Safe. -/
  | reservedOp (marked : State)
  /-- Raised by a step of a state that holds the `refused` mark: "the model gives that step and every later one no meaning"
  (R65). Safe. -/
  | afterReserved
  /-- Raised by a step when the host presents nothing more: that "is not a step" (R120; notes/assumptions/3.md). Safe. -/
  | nothingPresented
  /-- Raised by a launch from a state outside R32, which is "not a state of the block" (R22; 93_implementation_defined.md U2;
  notes/assumptions/5.md). Safe. -/
  | illegalLaunchState
deriving DecidableEq, Repr

/-- The state after power-on reset where `SPB_RESET` is `spb`: every register at the value R160 gives, nothing emitted, nothing
refused, nothing presented yet. -/
def State.powerOn (spb : BitVec 16) : State :=
  { cfgSpb := spb
    phase := .run
    err := .none
    acc := 0#32
    scnt := 0#16
    fbits := 0#10
    bcnt := 0#4
    chars := 0#32
    out := []
    refused := false
    input := [] }

/-- The machine right after reset (R160), with the implementation's `SPB_RESET` (R6). -/
def State.reset : State := State.powerOn Config.spbReset

end Sys2Proof.Machine
end

