-- ==== Sys2Proof/Machine/Operands.lean ====
section
/-! DEFINITION. Machine/Operands.lean: the operands of the transactions (spec 30_encoding.md R63), the threshold decision
(40_sample_path.md R83), and the fields of a frame (41_frame_path.md R100 to R103). -/

namespace Sys2Proof.Machine

/-- SAMPLE's operand `s = sext_32(in_word[15:0])`, an integer in [-32768, 32767] (R63). -/
def sampleOperand (fld : Field) : Int := (fld.signExtend 32).toInt

/-- CLEAR's operand `n = zext_16(in_word[15:0])` (R63). -/
def clearOperand (fld : Field) : BitVec 16 := fld.setWidth 16

/-- The bit of a window whose samples sum to `sum`: 1 exactly when the sum is positive (R83); a sum of 0 gives 0 (R82). -/
def nrzBit (sum : Int) : Bool := decide (0 < sum)

/-- `F` with bit `k` replaced by `b` (R101). -/
def frameWith (F : FrameWord) (k : Nat) (b : Bool) : FrameWord :=
  if b then F ||| (1#10 <<< k) else F &&& ~~~(1#10 <<< k)

/-- The start bit `F[0]` (START_POS, R6). -/
def startBit (F : FrameWord) : Bool := F.getLsbD 0

/-- The stop bit `F[9]` (STOP_POS, R6). -/
def stopBit (F : FrameWord) : Bool := F.getLsbD 9

/-- The data byte `F[8:1]` (R101, R103). -/
def frameByte (F : FrameWord) : Byte := F.extractLsb' 1 8

/-- What is wrong with a frame, the start bit checked first (R102); nothing for a valid frame. -/
def frameCheck (F : FrameWord) : Option FrameErr :=
  if startBit F then some .start else if !stopBit F then some .stop else none

end Sys2Proof.Machine
end

