-- ==== Sys2Proof/Machine/Flags.lean ====
section
/-! DEFINITION. Machine/Flags.lean: the codes of the status flags `phase` and `err` (spec 10_state.md R22, R27, R34), the words of
the output events (30_encoding.md R64), the read-only views (R67, R68) and the output ports of a step (R60). -/

namespace Sys2Proof.Machine

/-- The 2-bit code of `phase` (R22). -/
def Phase.code : Phase → BitVec 2
  | .run => 0b00#2
  | .done => 0b01#2
  | .err => 0b10#2

/-- The 2-bit code of `err` (R27, R66). -/
def ErrCode.code : ErrCode → BitVec 2
  | .none => 0b00#2
  | .start => 0b01#2
  | .stop => 0b10#2

/-- The value of `err` that records an exception (R141). -/
def FrameErr.errCode : FrameErr → ErrCode
  | .start => .start
  | .stop => .stop

/-- The output event of an exception (R141, R142). -/
def FrameErr.event : FrameErr → OutputEvent
  | .start => .errStart
  | .stop => .errStop

/-- `kind = out_word[9:8]` (R64). -/
def OutputEvent.kind : OutputEvent → BitVec 2
  | .char _ => 0b00#2
  | .errStart => 0b01#2
  | .errStop => 0b10#2
  | .done => 0b11#2

/-- `data = out_word[7:0]` (R64). -/
def OutputEvent.data : OutputEvent → Byte
  | .char b => b
  | .errStart => 0x00#8
  | .errStop => 0x00#8
  | .done => 0x00#8

/-- The output event word `{kind, data}` (R64). -/
def OutputEvent.word (e : OutputEvent) : EventWord := e.kind ++ e.data

/-- The STATUS view: PHASE [1:0], ERR [3:2], BCNT [7:4], zero [15:8] (R67). -/
def statusView (s : State) : BitVec 16 := 0#8 ++ (s.bcnt ++ (s.err.code ++ s.phase.code))

/-- The CFG_SPB view, port `cfg_spb_q` (R68, R60). -/
def cfgSpbView (s : State) : BitVec 16 := s.cfgSpb

/-- The CHAR_COUNT view, port `char_count` (R68, R60). -/
def charCountView (s : State) : BitVec 32 := s.chars

/-- The event a step from `before` to `after` presents on the output port, if any (R60, R46). -/
def presentedEvent (before after : State) : Option OutputEvent := (after.out.drop before.out.length).head?

/-- The port `out_valid` in that step (R60). -/
def outValid (before after : State) : Bool := (presentedEvent before after).isSome

/-- The port `out_word` in that step; no word while `out_valid` is low (R60; notes/assumptions/6.md). -/
def outWord (before after : State) : Option EventWord := (presentedEvent before after).map OutputEvent.word

end Sys2Proof.Machine
end

