-- ==== Sys2Proof/Machine/Ops.lean ====
section
/-! DEFINITION. Machine/Ops.lean: the operations the transactions share: emitting an event, the error entry, discarding the partial
window and frame, starting a new stream, power-on reset, and admitting a launch state. -/

namespace Sys2Proof.Machine

/-- `emit(e)`: append an event to the output stream (R9). -/
def emit (e : OutputEvent) (s : State) : State := { s with out := s.out ++ [e] }

/-- FrameError(k), the block's one way of taking an exception (R142): the phase becomes ERR, `err` records the cause, the error event
is emitted; `chars` keeps the failing frame's index, and nothing is saved. There is no return from it: only CLEAR and reset
leave ERR (R144). -/
def frameError (k : FrameErr) (s : State) : State := emit k.event { s with phase := .err, err := k.errCode }

/-- Discard the incomplete window and the incomplete frame (R121). -/
def discardPartial (s : State) : State := { s with acc := 0#32, scnt := 0#16, fbits := 0#10, bcnt := 0#4 }

/-- Start a new, empty stream at `spb` samples a bit (R122, R160): every register but `cfg_spb` at its reset value, nothing
emitted. -/
def newStream (spb : BitVec 16) (s : State) : State :=
  { s with cfgSpb := spb, phase := .run, err := .none, acc := 0#32, scnt := 0#16, fbits := 0#10, bcnt := 0#4, chars := 0#32 }

/-- Power-on reset as a step (R160): it loads `SPB_RESET` and emits nothing; `out` and `refused` "are not hardware state and are not
cleared by reset". -/
def powerOnReset (s : State) : State := newStream Config.spbReset s

/-- Whether a state is a state of the block, by all the conditions R32 lists. U2 (93_implementation_defined.md) names some of them; that
a launch asks for all is the model's choice (DESIGN CHOICE, notes/assumptions/5.md). -/
def State.launchable (s : State) : Bool :=
  decide (1 ≤ s.cfgSpb.toNat) && decide (s.scnt.toNat < s.cfgSpb.toNat)
    && decide (s.acc.toInt.natAbs ≤ s.scnt.toNat * 32768) && decide (s.bcnt.toNat ≤ 9)
    && (List.range 10).all (fun k => decide (k < s.bcnt.toNat) || !s.fbits.getLsbD k)
    && (decide (s.err ≠ .none) == decide (s.phase = .err))
    && (decide (s.phase = .run) || (s.acc == 0#32 && s.scnt == 0#16 && s.fbits == 0#10 && s.bcnt == 0#4))

/-- Launch the model from a state: refused from a state that is not a state of the block (U2; notes/assumptions/5.md). -/
def launch (s : State) : Host.Outcome State Fault Refusal :=
  if s.launchable then .next s else .refused .illegalLaunchState

end Sys2Proof.Machine
end

