-- ==== Sys2Proof/Machine/Control.lean ====
section
/-! DEFINITION. Machine/Control.lean: the control transactions EOS and CLEAR of spec 42_control.md (R121, R122) and the refusal of the
reserved one (30_encoding.md R65). -/

namespace Sys2Proof.Machine

/-- What EOS does to the state (R121): in RUN the incomplete window and frame are discarded without being checked, the phase becomes
DONE and DONE is emitted; in DONE or ERR it is ignored (R124). -/
def eosState (s : State) : State :=
  match s.phase with
  | .run => emit .done { discardPartial s with phase := .done }
  | .done => s
  | .err => s

/-- EOS (R121): `in_word[15:0]` "is read by nothing" (R63). -/
def execEos (_fld : Field) (s : State) : Host.Outcome State Fault Refusal := .next (eosState s)

/-- The samplesPerBit in force after CLEAR: the operand, or the present value where the operand is 0 (R122, R63). -/
def clearSpb (fld : Field) (s : State) : BitVec 16 := if clearOperand fld = 0#16 then s.cfgSpb else clearOperand fld

/-- CLEAR (R122): in every phase, a new stream, with no output. -/
def execClear (fld : Field) (s : State) : Host.Outcome State Fault Refusal := .next (newStream (clearSpb fld s) s)

/-- Set the `refused` mark (R33, R65). -/
def markRefused (s : State) : State := { s with refused := true }

/-- The reserved transaction (R65): no behaviour is given to it; the model sets the `refused` mark and refuses the step. -/
def execReserved (_fld : Field) (s : State) : Host.Outcome State Fault Refusal := .refused (.reservedOp (markRefused s))

end Sys2Proof.Machine
end

