-- ==== Sys2Proof/Machine/FramePath.lean ====
section
/-! DEFINITION. Machine/FramePath.lean: the frame path of spec 41_frame_path.md, PushBit and the completion of a frame (R101 to R104). -/

namespace Sys2Proof.Machine

/-- The tenth bit has come and `F` is the whole frame (R101): the frame register is cleared; an invalid frame enters FrameError
(R142), a valid one emits its character and counts it (R103, R104). -/
def completeFrame (F : FrameWord) (s : State) : State :=
  match frameCheck F with
  | some k => frameError k { s with fbits := 0#10, bcnt := 0#4 }
  | none => emit (.char (frameByte F)) { s with fbits := 0#10, bcnt := 0#4, chars := s.chars + 1#32 }

/-- PushBit(b): take the next bit of the bit stream into the current frame (R101). -/
def pushBit (b : Bool) (s : State) : State :=
  if s.bcnt.toNat < 9 then
    { s with fbits := frameWith s.fbits s.bcnt.toNat b, bcnt := s.bcnt + 1#4 }
  else
    completeFrame (frameWith s.fbits 9 b) s

end Sys2Proof.Machine
end

