-- ==== Sys2Proof/Machine/SamplePath.lean ====
section
/-! DEFINITION. Machine/SamplePath.lean: the sample path of spec 40_sample_path.md, the transaction SAMPLE (R84). -/

namespace Sys2Proof.Machine

/-- Take one sample into the current window, in RUN (R84). The sum and the count are exact integers; the sample that completes the
window empties it and passes the window's bit to the frame path. -/
def acceptSample (x : Int) (s : State) : State :=
  let a := s.acc.toInt + x
  let n := s.scnt.toNat + 1
  if n < s.cfgSpb.toNat then
    { s with acc := BitVec.ofInt 32 a, scnt := BitVec.ofNat 16 n }
  else
    pushBit (nrzBit a) { s with acc := 0#32, scnt := 0#16 }

/-- What SAMPLE does to the state: in DONE or ERR the stream is over and the sample is ignored (R84, R124). -/
def sampleState (fld : Field) (s : State) : State :=
  match s.phase with
  | .run => acceptSample (sampleOperand fld) s
  | .done => s
  | .err => s

/-- SAMPLE (R84). -/
def execSample (fld : Field) (s : State) : Host.Outcome State Fault Refusal := .next (sampleState fld s)

end Sys2Proof.Machine
end

