-- ==== Sys2Proof/Machine/Dispatch.lean ====
section
/-! DEFINITION. Machine/Dispatch.lean: which meaning each transaction has (spec 42_control.md R120). -/

namespace Sys2Proof.Machine

/-- One transaction, performed (R120). -/
def exec (i : Instr) (s : State) : Host.Outcome State Fault Refusal :=
  match i with
  | .sample fld => Sys2Proof.Machine.execSample fld s
  | .eos fld => Sys2Proof.Machine.execEos fld s
  | .clear fld => Sys2Proof.Machine.execClear fld s
  | .reserved fld => Sys2Proof.Machine.execReserved fld s

end Sys2Proof.Machine
end

