-- ==== Sys2Proof/WellFormed.lean ====
section
/-! DEFINITION. WellFormed.lean: which transactions a host may present (spec 30_encoding.md R65, R62) and which trace lines
assemble (R69, R70). -/

namespace Sys2Proof

/-- A transaction a host may present: the reserved row "is marked as not an instruction" (R62) and "the upstream host must never
present it" (R65, R170). Every field value of the other three is legal (R63). -/
def Instr.wf : Instr → Bool
  | .sample _ => true
  | .eos _ => true
  | .clear _ => true
  | .reserved _ => false

/-- A sample value: an integer in [-32768, 32767] (R69, R42). -/
def sampleInRange (v : Int) : Bool := decide (-32768 ≤ v) && decide (v ≤ 32767)

/-- A drive level, where one is written: in [1, 32767] (R70). -/
def driveInRange : Option Nat → Bool
  | none => true
  | some a => decide (1 ≤ a) && decide (a ≤ 32767)

/-- The ranges R69 and R70 give the operands of a trace line. -/
def TraceLine.wf : TraceLine → Bool
  | .sample v => sampleInRange v
  | .eos => true
  | .clear none => true
  | .clear (some n) => decide (n ≤ 65535)
  | .level v _ => sampleInRange v
  | .bit _ drive => driveInRange drive
  | .frameBits bs drive => decide (bs.length = 10) && driveInRange drive
  | .frame x drive => decide (x ≤ 255) && driveInRange drive
  | .msg text drive => text.all (fun c => decide (c ≤ 255)) && driveInRange drive

end Sys2Proof
end

