-- ==== Sys2Proof/Decode.lean ====
section
/-! DEFINITION. Decode.lean: the decoder of the 18-bit input word, then the encoder written from the same table (spec
30_encoding.md R61 to R63), then the assembler of the trace language (R69, R70). -/

namespace Sys2Proof

/-- `op = in_word[17:16]` (R61). -/
def opField (w : InWord) : BitVec 2 := w.extractLsb' 16 2

/-- `fld = in_word[15:0]` (R61). -/
def fldField (w : InWord) : Field := w.extractLsb' 0 16

/-- The opcode map (R62), row by row. -/
def opcodeTable : List OpcodeRow :=
  [ ⟨"SAMPLE", 0x00000#18, 0x30000#18⟩,
    ⟨"EOS", 0x10000#18, 0x30000#18⟩,
    ⟨"CLEAR", 0x20000#18, 0x30000#18⟩,
    ⟨"(reserved)", 0x30000#18, 0x30000#18⟩ ]

/-- Whether a word is of a row (R62). -/
def OpcodeRow.matches (r : OpcodeRow) (w : InWord) : Bool := w &&& r.mask == r.pattern

/-- The decoder, total: every 18-bit word is of exactly one row (R62, R120). -/
def decode (w : InWord) : Instr :=
  match (opField w).toNat with
  | 0 => .sample (fldField w)
  | 1 => .eos (fldField w)
  | 2 => .clear (fldField w)
  | _ => .reserved (fldField w)

/-- The row's name for each transaction, as the opcode map spells it. -/
def Instr.mnemonic : Instr → String
  | .sample _ => "SAMPLE"
  | .eos _ => "EOS"
  | .clear _ => "CLEAR"
  | .reserved _ => "(reserved)"

/-- The `op` of each row (R62). -/
def Instr.op : Instr → BitVec 2
  | .sample _ => 0b00#2
  | .eos _ => 0b01#2
  | .clear _ => 0b10#2
  | .reserved _ => 0b11#2

/-- The field of a transaction. -/
def Instr.fld : Instr → Field
  | .sample f => f
  | .eos f => f
  | .clear f => f
  | .reserved f => f

/-- The encoder: the word `{op, fld}` (R61). -/
def encode (i : Instr) : InWord := i.op ++ i.fld

/-- The number `w` as an input word, rejected by name where it has a bit above `in_word[17]` (R60). -/
def wordOfNat (w : Nat) : Except DecodeReject InWord :=
  if w < 2 ^ 18 then .ok (BitVec.ofNat 18 w) else .error .widerThanPort

/-- The decoder on numbers: total, rejecting by name what is no 18-bit word. -/
def decodeNat (w : Nat) : Except DecodeReject Instr := (wordOfNat w).map decode

/-- The table's word of `nbits` bits, every bit above them 0, as an input word (notes/assumptions/8.md). -/
def tableWord (nbits w : Nat) : Except DecodeReject InWord := wordOfNat (w % 2 ^ nbits)

/-- The instruction the decoder reads from a word numbered as the opcode table numbers it. -/
def decodeTableWord (nbits w : Nat) : Option Instr :=
  match tableWord nbits w with
  | .ok v => some (decode v)
  | .error _ => none

/-- `SAMPLE <int>` assembles to `{0b00, <int> mod 2^16}` (R69). -/
def sampleOf (v : Int) : Instr := .sample (BitVec.ofInt 16 v)

/-- `LEVEL v n`: `n` copies of `SAMPLE v` (R70). -/
def levelInstrs (v : Int) (n : Nat) : List Instr := List.replicate n (sampleOf v)

/-- `BIT b` at drive level `a`, `spb` samples a bit (R70). -/
def bitInstrs (spb a : Nat) (b : Bool) : List Instr := levelInstrs (if b then (a : Int) else -(a : Int)) spb

/-- `FRAMEBITS [b0, ..., b9]`: `BIT b0` ... `BIT b9`, in that order (R70). -/
def frameBitsInstrs (spb a : Nat) (bs : List Bool) : List Instr := bs.flatMap (bitInstrs spb a)

/-- The synthetic frame of a byte: start 0, the eight data bits least significant first, stop 1 (R70, R107). -/
def frameBitsOf (x : Byte) : List Bool :=
  [false, x.getLsbD 0, x.getLsbD 1, x.getLsbD 2, x.getLsbD 3, x.getLsbD 4, x.getLsbD 5, x.getLsbD 6, x.getLsbD 7, true]

/-- `FRAME x` (R70). -/
def frameInstrs (spb a : Nat) (x : Byte) : List Instr := frameBitsInstrs spb a (frameBitsOf x)

/-- `MSG text`: `FRAME c` for each byte, in order (R70). -/
def msgInstrs (spb a : Nat) (text : List Byte) : List Instr := text.flatMap (frameInstrs spb a)

/-- The drive level of a line: the suffix where one is written, else the default (R70). -/
def driveOf (drive : Option Nat) : Nat := drive.getD Config.defaultDrive

/-- The base transactions a trace line stands for; `spb` is the `cfg_spb` its writer intends (R69, R70). -/
def TraceLine.expand (spb : Nat) : TraceLine → List Instr
  | .sample v => [sampleOf v]
  | .eos => [.eos 0#16]
  | .clear n => [.clear (BitVec.ofNat 16 (n.getD 0))]
  | .level v n => levelInstrs v n
  | .bit b drive => bitInstrs spb (driveOf drive) b
  | .frameBits bs drive => frameBitsInstrs spb (driveOf drive) bs
  | .frame x drive => frameInstrs spb (driveOf drive) (BitVec.ofNat 8 x)
  | .msg text drive => msgInstrs spb (driveOf drive) (text.map (BitVec.ofNat 8))

/-- The words a trace line assembles to; no words for a line whose operands are out of range (R69, R70). -/
def TraceLine.assemble (spb : Nat) (l : TraceLine) : Option (List InWord) :=
  if l.wf then some ((l.expand spb).map encode) else none

end Sys2Proof
end

