-- ==== Sys2Proof/Machine/Fetch.lean ====
section
/-! DEFINITION. Machine/Fetch.lean: what the block finds on its input ports (spec 30_encoding.md R60, 42_control.md R120), and placing
a word there. -/

namespace Sys2Proof.Machine

/-- What the next step is to do. -/
inductive Fetched where
  /-- There is no step to make, and why. -/
  | stop (r : Refusal)
  /-- `rst` is high: the reset step, in the state whose presentation has been taken. -/
  | reset (s : State)
  /-- A transaction is presented: its word decoded, in the state whose presentation has been taken. -/
  | transaction (i : Instr) (s : State)
deriving DecidableEq, Repr

/-- Whether one presentation is a step at all: with `in_valid = 0` and no `rst` "nothing happens, and a model has no transition for
it" (R120; notes/assumptions/3.md). -/
def InputPins.isStep (p : InputPins) : Bool := p.rst || p.inValid

/-- The first presentation that is a step, and what follows it. -/
def nextPresented : List InputPins → Option (InputPins × List InputPins)
  | [] => none
  | p :: ps => if p.isStep then some (p, ps) else nextPresented ps

/-- What the next step is to do (R120): nothing any more once the `refused` mark is set (R65); reset where `rst` is high, whatever is
presented at the same time (R143); else the decoded transaction. -/
def fetch (s : State) : Fetched :=
  if s.refused then .stop .afterReserved
  else
    match nextPresented s.input with
    | none => .stop .nothingPresented
    | some (p, rest) =>
      if p.rst then .reset { s with input := rest } else .transaction (decode p.inWord) { s with input := rest }

/-- The host presents a word: `in_valid` high, `rst` low. -/
def presentWord (w : InWord) : InputPins := { rst := false, inValid := true, inWord := w }

/-- The host presents a transaction. -/
def present (i : Instr) : InputPins := presentWord (encode i)

/-- The host drives `rst` alone. -/
def presentReset : InputPins := { rst := true, inValid := false, inWord := 0#18 }

/-- `s` with the table's word as the very next presentation; what is no 18-bit word cannot be presented, and then nothing is
(notes/assumptions/2.md, notes/assumptions/8.md). -/
def presentTableWord (s : State) (nbits w : Nat) : State :=
  match tableWord nbits w with
  | .ok v => { s with input := presentWord v :: s.input }
  | .error _ => { s with input := [] }

end Sys2Proof.Machine
end

