-- ==== Sys2Proof/Machine/Step.lean ====
section
/-! DEFINITION. Machine/Step.lean: one step of the block (spec 42_control.md R120): one presented transaction, or the reset step. -/

namespace Sys2Proof.Machine

/-- One step (R120). -/
def step (s : State) : Host.Outcome State Fault Refusal :=
  match fetch s with
  | .stop r => .refused r
  | .reset s' => .next (powerOnReset s')
  | .transaction i s' => exec i s'

/-- `s` with the table's word presented next, so that the very next step performs it. -/
def State.withFetchWord (s : State) (nbits w : Nat) : State := presentTableWord s nbits w

end Sys2Proof.Machine
end

