-- ==== Sys2Proof/Machine/Reference.lean ====
section
/-! DEFINITION. Machine/Reference.lean: the source's pipeline as a pure function, the normative reference of the spec: normalisation and
the mean (40_sample_path.md R80 to R82), the integer decision (R83), and the decoder (41_frame_path.md R110). -/

namespace Sys2Proof.Machine

/-- The amplitude of a raw 16-bit sample, an exact rational (R80). -/
def amplitude (s : Int) : Rat := (s : Rat) / 32768

/-- The complete windows of a sample sequence: window `i` is `[i·S, (i+1)·S)`, and the last `N mod S` samples are in none (R81). -/
def windowsOf (S : Nat) (xs : List Int) : List (List Int) :=
  (List.range (xs.length / S)).map (fun i => (xs.drop (i * S)).take S)

/-- The mean amplitude of a window of `S` samples (R82). -/
def windowMean (S : Nat) (win : List Int) : Rat := (win.map amplitude).sum / (S : Rat)

/-- The source's decision: 1 exactly when the mean is positive (R82). -/
def meanBit (S : Nat) (win : List Int) : Bool := decide (0 < windowMean S win)

/-- The integer form of the decision: 1 exactly when the sum of the raw samples is positive (R83). -/
def sumBit (win : List Int) : Bool := nrzBit win.sum

/-- The bit sequence of a sample sequence (R81, R83). -/
def bitsOf (S : Nat) (xs : List Int) : List Bool := (windowsOf S xs).map sumBit

/-- The complete frames of a bit sequence: frame `f` is `[10·f, 10·f + 10)`, and the last `L mod 10` bits are in none (R106, R108). -/
def framesOf (bits : List Bool) : List (List Bool) :=
  (List.range (bits.length / 10)).map (fun f => (bits.drop (10 * f)).take 10)

/-- The outcome of a decode: the source's success, StartBitError or StopBitError (R110). -/
inductive RefOutcome where
  | ok
  | start
  | stop
deriving DecidableEq, Repr

/-- The byte of a frame given as a list of bits: the sum of `F[k] · 2^(k-1)` for `k = 1..8` (R103). -/
def refByte (F : List Bool) : Byte :=
  BitVec.ofNat 8 ((List.range 8).map (fun j => (F.getD (j + 1) false).toNat * 2 ^ j)).sum

/-- The loop of R110 over the frames, in order, with the message so far: an invalid frame returns at once, the start bit checked
first (R102). -/
def decodeFrames (msg : List Byte) : List (List Bool) → List Byte × RefOutcome
  | [] => (msg, .ok)
  | F :: Fs =>
    if F.getD 0 false then (msg, .start)
    else if !F.getD 9 false then (msg, .stop)
    else decodeFrames (msg ++ [refByte F]) Fs

/-- The reference decoder `decode(S, xs)` (R110). -/
def refDecode (S : Nat) (xs : List Int) : List Byte × RefOutcome := decodeFrames [] (framesOf (bitsOf S xs))

end Sys2Proof.Machine
end

