-- ==== Sys2Proof/Machine/Runs.lean ====
section
/-! DEFINITION. Machine/Runs.lean: what a run is and what its result is (spec 42_control.md R126), read from the output stream. -/

namespace Sys2Proof.Machine

/-- The host presents these transactions next, in this order, before what it has still to present. -/
def presentAll (is : List Instr) (s : State) : State := { s with input := is.map present ++ s.input }

/-- The samples of a capture as transactions, one each, in order (R41). -/
def sampleInstrs (xs : List Field) : List Instr := xs.map Instr.sample

/-- The samples as the integers the block reads (R42, R63). -/
def sampleValues (xs : List Field) : List Int := xs.map sampleOperand

/-- The events emitted between two states of one machine (R33). -/
def eventsBetween (before after : State) : List OutputEvent := after.out.drop before.out.length

/-- The byte of a CHAR event. -/
def OutputEvent.charByte : OutputEvent → Option Byte
  | .char b => some b
  | .errStart => none
  | .errStop => none
  | .done => none

/-- The Message of a run: its CHAR events, in order (R126). -/
def messageOf (evs : List OutputEvent) : List Byte := evs.filterMap OutputEvent.charByte

/-- What a run that has ended reports, with its Message (R126); on a failure the Message is the prefix decoded before it (R110). -/
inductive RunResult where
  | success (msg : List Byte)
  | startBitError (msg : List Byte)
  | stopBitError (msg : List Byte)
deriving DecidableEq, Repr

/-- The result of the run that began at `first` and stands at `last`, by its last event (R126); none while it has not ended, and
none with the `refused` mark (R65). -/
def runResult (first last : State) : Option RunResult :=
  if last.refused then none
  else
    match (eventsBetween first last).getLast? with
    | some .done => some (.success (messageOf (eventsBetween first last)))
    | some .errStart => some (.startBitError (messageOf (eventsBetween first last)))
    | some .errStop => some (.stopBitError (messageOf (eventsBetween first last)))
    | some (.char _) => none
    | none => none

/-- A run has ended when its phase is DONE or ERR (R126). -/
def runEnded (s : State) : Bool := decide (s.phase ≠ .run)

/-- The event that ends a run with a given outcome of the reference decoder (R111). -/
def RefOutcome.event : RefOutcome → OutputEvent
  | .ok => .done
  | .start => .errStart
  | .stop => .errStop

/-- The phase a run with that outcome ends in, after EOS (R111). -/
def RefOutcome.endPhase : RefOutcome → Phase
  | .ok => .done
  | .start => .err
  | .stop => .err

/-- The value of `err` it ends with (R111). -/
def RefOutcome.endErr : RefOutcome → ErrCode
  | .ok => .none
  | .start => .start
  | .stop => .stop

/-- The error event that a stream without its EOS has emitted beside its characters: one where a complete frame is invalid, none
else (R111). -/
def RefOutcome.errorEvents : RefOutcome → List OutputEvent
  | .ok => []
  | .start => [.errStart]
  | .stop => [.errStop]

end Sys2Proof.Machine
end

