-- ==== Sys2Proof/Safety.lean ====
section
/-! DEFINITION. Safety.lean: the conditions the spec puts on states and inputs, in which claims are stated: the invariant of
10_state.md R32, the start of a stream (41_frame_path.md R111), the shape of an observation (00_scope.md R10), and the upstream
host's duty about the reserved op (70_reset_and_hazards.md R170). -/

namespace Sys2Proof.Machine

/-- The conditions every state reachable from power-on reset satisfies between transactions (R32). That `cfg_spb` is at most 65535 and
`phase` one of its three values holds of every State by its types. -/
structure State.Inv (s : State) : Prop where
  cfg_positive : 1 ≤ s.cfgSpb.toNat
  scnt_below : s.scnt.toNat < s.cfgSpb.toNat
  acc_bound : s.acc.toInt.natAbs ≤ s.scnt.toNat * 32768
  bcnt_le_nine : s.bcnt.toNat ≤ 9
  fbits_high_zero : ∀ k, s.bcnt.toNat ≤ k → s.fbits.getLsbD k = false
  err_iff_phase : s.err ≠ .none ↔ s.phase = .err
  ended_empty : s.phase ≠ .run → s.acc = 0#32 ∧ s.scnt = 0#16 ∧ s.fbits = 0#10 ∧ s.bcnt = 0#4

/-- The sum of `scnt` samples, each in [-32768, 32767] (R23). -/
def State.AccRange (s : State) : Prop :=
  -((s.scnt.toNat : Int) * 32768) ≤ s.acc.toInt ∧ s.acc.toInt ≤ (s.scnt.toNat : Int) * 32767

/-- The states in which a stream at `S` samples a bit begins (R111, R162): power-on reset with `SPB_RESET = S`, the reset step with that
value, and the state just after `CLEAR S`, or after `CLEAR 0` where `cfg_spb` is already `S`; with any input still to come. -/
inductive StreamStart (S : BitVec 16) : State → Prop where
  | powerOn (ps : List InputPins) : StreamStart S { State.powerOn S with input := ps }
  | resetStep (s : State) (h : Config.spbReset = S) (hr : s.refused = false) : StreamStart S (powerOnReset s)
  | clearLoad (s t : State) (hr : s.refused = false) (hS : S ≠ 0#16) (h : exec (.clear S) s = .next t) : StreamStart S t
  | clearKeep (s t : State) (hr : s.refused = false) (hS : s.cfgSpb = S) (h : exec (.clear 0#16) s = .next t) : StreamStart S t

/-- The shape R10 gives an observation, for the run that began when the output stream was `base`: CHAR events, as many as `chars` counts
modulo 2^32 (R28), then nothing in RUN, one DONE in DONE, one error event of the kind `err` names in ERR. -/
def RunShape (base : List OutputEvent) (s : State) : Prop :=
  ∃ msg : List Byte, s.chars = BitVec.ofNat 32 msg.length ∧
    match s.phase, s.err with
    | .run, .none => s.out = base ++ msg.map OutputEvent.char
    | .done, .none => s.out = base ++ msg.map OutputEvent.char ++ [.done]
    | .err, .start => s.out = base ++ msg.map OutputEvent.char ++ [.errStart]
    | .err, .stop => s.out = base ++ msg.map OutputEvent.char ++ [.errStop]
    | _, _ => False

/-- Whether the next step of `s` starts a new run: it is the reset step or a CLEAR (R126). -/
def startsRun (s : State) : Bool :=
  match fetch s with
  | .reset _ => true
  | .transaction (.clear _) _ => true
  | .transaction _ _ => false
  | .stop _ => false

/-- The upstream host's first duty: no presentation that is a transaction carries `op = 0b11` (R170, R65). -/
def keepsDuty (ps : List InputPins) : Bool := ps.all (fun p => p.rst || !p.inValid || (decode p.inWord).wf)

/-- The eight registers of two states are equal (R20); what each has emitted so far, and what is to be presented, may differ. -/
structure SameRegisters (s t : State) : Prop where
  cfgSpb : s.cfgSpb = t.cfgSpb
  phase : s.phase = t.phase
  err : s.err = t.err
  acc : s.acc = t.acc
  scnt : s.scnt = t.scnt
  fbits : s.fbits = t.fbits
  bcnt : s.bcnt = t.bcnt
  chars : s.chars = t.chars

end Sys2Proof.Machine
end

