-- ==== Sys2Proof/Certificates/Slice0/Obligations.lean ====
section
/-! DEFINITION. Certificates/Slice0/Obligations.lean: the statements about the block, from the numbered rules of the spec. -/

open Sys2Proof Sys2Proof.Machine

/-! ### Encodings -/

/-- Words written out from the opcode map and the spec's own vectors decode to the transactions they stand for (R62; 95_test_vectors.md
2.1, 2.4, P2). -/
def Obligations.WrittenWordsDecode : Prop :=
  decode 0x0FFCE#18 = .sample 0xFFCE#16 ∧ decode 0x08000#18 = .sample 0x8000#16 ∧ decode 0x10000#18 = .eos 0#16 ∧
    decode 0x1ABCD#18 = .eos 0xABCD#16 ∧ decode 0x20008#18 = .clear 8#16 ∧ decode 0x2FFFF#18 = .clear 0xFFFF#16 ∧
    decode 0x30000#18 = .reserved 0#16 ∧ decode 0x3FFFF#18 = .reserved 0xFFFF#16

/-- R62: the opcode map's rows are as written there, every 18-bit word is of exactly one row of the opcode map, its transaction is that row's, and `op` selects it. -/
def Obligations.EveryWordIsOfExactlyOneRow : Prop :=
  opcodeTable.map (fun r => (r.mnemonic, r.pattern, r.mask)) =
    [("SAMPLE", 0x00000#18, 0x30000#18), ("EOS", 0x10000#18, 0x30000#18), ("CLEAR", 0x20000#18, 0x30000#18),
     ("(reserved)", 0x30000#18, 0x30000#18)] ∧
  ∀ w : InWord,
    (∃ r ∈ opcodeTable, r.matches w = true ∧ (decode w).mnemonic = r.mnemonic ∧
      ∀ r' ∈ opcodeTable, r'.matches w = true → r' = r) ∧
    (w.extractLsb' 16 2 = 0b00#2 ↔ decode w = .sample (w.extractLsb' 0 16)) ∧
    (w.extractLsb' 16 2 = 0b01#2 ↔ decode w = .eos (w.extractLsb' 0 16)) ∧
    (w.extractLsb' 16 2 = 0b10#2 ↔ decode w = .clear (w.extractLsb' 0 16)) ∧
    (w.extractLsb' 16 2 = 0b11#2 ↔ decode w = .reserved (w.extractLsb' 0 16))

/-- Decoding and encoding undo each other, for every transaction and for every word (R61 to R63). -/
def Obligations.DecodeEncodeAgree : Prop :=
  (∀ i : Instr, decode (encode i) = i) ∧ (∀ w : InWord, encode (decode w) = w)

/-- A word placed as the opcode table numbers it is the very next transaction performed (log entries 2 and 8: the model's choice of
what stands for presenting a word). -/
def Obligations.PlacedTableWordRunsNext : Prop :=
  ∀ (s : State) (nbits w : Nat), s.refused = false →
    (w % 2 ^ nbits < 2 ^ 18 →
      decodeTableWord nbits w = some (decode (BitVec.ofNat 18 (w % 2 ^ nbits))) ∧
        step (s.withFetchWord nbits w) = exec (decode (BitVec.ofNat 18 (w % 2 ^ nbits))) s) ∧
    (2 ^ 18 ≤ w % 2 ^ nbits →
      decodeTableWord nbits w = none ∧ step (s.withFetchWord nbits w) = .refused .nothingPresented)

/-- The base lines of the trace language assemble to the words R69 gives, and only where their operands are in range. -/
def Obligations.TraceLinesAssemble : Prop :=
  (∀ (S : Nat) (v : Int), -32768 ≤ v → v ≤ 32767 →
    ∃ f : Field, f.toInt = v ∧ TraceLine.assemble S (.sample v) = some [0b00#2 ++ f] ∧ decode (0b00#2 ++ f) = .sample f) ∧
  (∀ (S : Nat) (v : Int), v < -32768 ∨ 32767 < v → TraceLine.assemble S (.sample v) = none) ∧
  (∀ S : Nat, TraceLine.assemble S .eos = some [0x10000#18]) ∧
  (∀ S n : Nat, n ≤ 65535 →
    TraceLine.assemble S (.clear (some n)) = some [0b10#2 ++ BitVec.ofNat 16 n] ∧
      decode (0b10#2 ++ BitVec.ofNat 16 n) = .clear (BitVec.ofNat 16 n)) ∧
  (∀ S n : Nat, 65535 < n → TraceLine.assemble S (.clear (some n)) = none) ∧
  (∀ S : Nat, TraceLine.assemble S (.clear none) = TraceLine.assemble S (.clear (some 0)))

/-- R64: the event words, their two fields, and that no two events share a word. -/
def Obligations.OutputEventWords : Prop :=
  (∀ b : Byte, (OutputEvent.char b).word = 0b00#2 ++ b) ∧ OutputEvent.errStart.word = 0x100#10 ∧
    OutputEvent.errStop.word = 0x200#10 ∧ OutputEvent.done.word = 0x300#10 ∧
    (∀ e : OutputEvent, e.word.extractLsb' 8 2 = e.kind ∧ e.word.extractLsb' 0 8 = e.data) ∧
    (∀ e e' : OutputEvent, e.word = e'.word → e = e')

/-! ### The step -/

/-- A presented word is performed: the step is exec of the decoded transaction, in the state whose presentation has been taken, also
behind presentations that are no step (R120). -/
def Obligations.StepRunsPresentedTransaction : Prop :=
  ∀ (s : State) (idle rest : List InputPins) (w : InWord), s.refused = false →
    (∀ p ∈ idle, p.rst = false ∧ p.inValid = false) →
    s.input = idle ++ { rst := false, inValid := true, inWord := w } :: rest →
    step s = exec (decode w) { s with input := rest }

/-- R160: the reset step puts every register at its reset value and emits nothing, whatever is presented at the same time, and the
views then read as stated; `SPB_RESET` is legal. `out` and `refused` are not cleared. -/
def Obligations.ResetStepLoadsResetValues : Prop :=
  (1 ≤ Config.spbReset.toNat ∧ Config.spbReset.toNat ≤ 65535) ∧
  ∀ (s : State) (v : Bool) (w : InWord) (rest : List InputPins), s.refused = false →
    s.input = { rst := true, inValid := v, inWord := w } :: rest →
    ∃ t : State, step s = .next t ∧
      t = { cfgSpb := Config.spbReset, phase := .run, err := .none, acc := 0#32, scnt := 0#16, fbits := 0#10, bcnt := 0#4,
            chars := 0#32, out := s.out, refused := s.refused, input := rest } ∧
      statusView t = 0x0000#16 ∧ cfgSpbView t = Config.spbReset ∧ charCountView t = 0#32

/-- With `in_valid = 0` and no `rst` there is no step: such a presentation changes nothing, and where nothing else is presented the
model has no transition (R120; log entry 3). -/
def Obligations.IdlePortsAreNoStep : Prop :=
  (∀ (s : State) (w : InWord) (rest : List InputPins), s.input = { rst := false, inValid := false, inWord := w } :: rest →
    step s = step { s with input := rest }) ∧
  (∀ s : State, s.refused = false → (∀ p ∈ s.input, p.rst = false ∧ p.inValid = false) → step s = .refused .nothingPresented)

/-- R65: the reserved transaction is refused and sets the mark, whatever its field and the state; a state that holds the mark makes no
step, so the mark is never cleared, and no other step sets it; a non-zero field of EOS is ignored. -/
def Obligations.ReservedTransactionIsRefused : Prop :=
  (∀ (f : Field) (s : State), exec (.reserved f) s = .refused (.reservedOp { s with refused := true })) ∧
  (∀ s : State, s.refused = true → step s = .refused .afterReserved) ∧
  (∀ s t : State, step s = .next t → s.refused = false ∧ t.refused = false) ∧
  (∀ (f g : Field) (s : State), exec (.eos f) s = exec (.eos g) s)

/-- While the host keeps its first duty and presents something, a step completes, and the duty and the absence of the mark carry over
(R164, R170): the block has no hang. -/
def Obligations.PresentedTransactionCompletes : Prop :=
  ∀ s : State, s.refused = false → keepsDuty s.input = true → (∃ p ∈ s.input, p.isStep = true) →
    ∃ t : State, step s = .next t ∧ t.refused = false ∧ keepsDuty t.input = true

/-- A launch is admitted exactly from the states R32 describes, and refused from every other one. U2 (93_implementation_defined.md) asks
for the refusal of `phase` or `err` 0b11 (which the types exclude), `bcnt ≥ 10`, `scnt ≥ cfg_spb` and `cfg_spb = 0`. Refusing also the
states that break R32's bound on `acc`, its zeros of `fbits`, `err ≠ NONE` exactly in ERR, or the emptiness outside RUN is the model's
choice (DESIGN CHOICE, log entry 5): of those R32 says only that a claim must take its conditions as premises. -/
def Obligations.LaunchAdmitsExactlyBlockStates : Prop :=
  ∀ s : State, (s.Inv → launch s = .next s) ∧ (¬ s.Inv → launch s = .refused .illegalLaunchState)

/-! ### SAMPLE -/

/-- R84, a window not yet complete: the sum and the count grow by the sample, and nothing else changes. -/
def Obligations.SampleExtendsOpenWindow : Prop :=
  ∀ (s : State) (f : Field), s.Inv → s.phase = .run → s.scnt.toNat + 1 < s.cfgSpb.toNat →
    ∃ t : State, exec (.sample f) s = .next t ∧ t.acc.toInt = s.acc.toInt + f.toInt ∧ t.scnt.toNat = s.scnt.toNat + 1 ∧
      t = { s with acc := t.acc, scnt := t.scnt }

/-- R84 and R101, the sample that completes a window inside a frame: the window is emptied, the frame takes the bit (1 exactly when the
sum is positive) at its next position, and nothing else changes. -/
def Obligations.SampleClosingWindowStoresBit : Prop :=
  ∀ (s : State) (f : Field), s.Inv → s.phase = .run → s.scnt.toNat + 1 = s.cfgSpb.toNat → s.bcnt.toNat < 9 →
    ∃ t : State, exec (.sample f) s = .next t ∧ t.bcnt.toNat = s.bcnt.toNat + 1 ∧
      (∀ k, k < 10 → t.fbits.getLsbD k = if k = s.bcnt.toNat then decide (0 < s.acc.toInt + f.toInt) else s.fbits.getLsbD k) ∧
      t = { s with acc := 0#32, scnt := 0#16, fbits := t.fbits, bcnt := t.bcnt }

/-- R101, R103, R104: the sample that completes a valid frame emits its character and counts it, with the window and the frame
emptied; nothing else changes. -/
def Obligations.SampleCompletingValidFrameEmitsChar : Prop :=
  ∀ (s : State) (f : Field), s.Inv → s.phase = .run → s.scnt.toNat + 1 = s.cfgSpb.toNat → s.bcnt.toNat = 9 →
    s.fbits.getLsbD 0 = false → 0 < s.acc.toInt + f.toInt →
    ∃ b : Byte, (∀ j, j < 8 → b.getLsbD j = s.fbits.getLsbD (j + 1)) ∧
      exec (.sample f) s = .next { s with acc := 0#32, scnt := 0#16, fbits := 0#10, bcnt := 0#4, chars := s.chars + 1#32,
                                          out := s.out ++ [.char b] }

/-- R102, R142: the sample that completes an invalid frame enters the error state: START whenever the start bit is 1, STOP when it is
0 and the stop bit is 0; one error event, `chars` kept, nothing else changed but the emptied window and frame. Any other frame is
valid: no error is entered. -/
def Obligations.SampleCompletingInvalidFrameEntersError : Prop :=
  ∀ (s : State) (f : Field), s.Inv → s.phase = .run → s.scnt.toNat + 1 = s.cfgSpb.toNat → s.bcnt.toNat = 9 →
    (s.fbits.getLsbD 0 = true →
      exec (.sample f) s = .next { s with acc := 0#32, scnt := 0#16, fbits := 0#10, bcnt := 0#4, phase := .err, err := .start,
                                          out := s.out ++ [.errStart] }) ∧
    (s.fbits.getLsbD 0 = false → s.acc.toInt + f.toInt ≤ 0 →
      exec (.sample f) s = .next { s with acc := 0#32, scnt := 0#16, fbits := 0#10, bcnt := 0#4, phase := .err, err := .stop,
                                          out := s.out ++ [.errStop] }) ∧
    (s.fbits.getLsbD 0 = false → 0 < s.acc.toInt + f.toInt →
      ∃ t : State, exec (.sample f) s = .next t ∧ t.phase = .run ∧ t.err = .none ∧ ∃ b : Byte, t.out = s.out ++ [.char b])

/-- The frame of SAMPLE, in every state: what each row of R30's write table leaves unchanged. -/
def Obligations.SampleWritesOnlyWhatItsRowNames : Prop :=
  ∀ (s : State) (f : Field), ∃ t : State, exec (.sample f) s = .next t ∧
    t.cfgSpb = s.cfgSpb ∧ t.refused = s.refused ∧ t.input = s.input ∧
    (s.phase ≠ .run → t = s) ∧
    (s.phase = .run → s.scnt.toNat + 1 < s.cfgSpb.toNat → t = { s with acc := t.acc, scnt := t.scnt }) ∧
    (s.phase = .run → s.cfgSpb.toNat ≤ s.scnt.toNat + 1 → s.bcnt.toNat < 9 →
      t = { s with acc := 0#32, scnt := 0#16, fbits := t.fbits, bcnt := t.bcnt }) ∧
    (s.phase = .run → s.cfgSpb.toNat ≤ s.scnt.toNat + 1 → 9 ≤ s.bcnt.toNat →
      t = { s with acc := 0#32, scnt := 0#16, fbits := 0#10, bcnt := 0#4, phase := t.phase, err := t.err, chars := t.chars,
                   out := t.out } ∧
      (t.phase = .run → t.err = s.err ∧ t.chars = s.chars + 1#32) ∧ (t.phase ≠ .run → t.phase = .err ∧ t.chars = s.chars))

/-- R23: the sum kept in `acc` stays in the exact range of its samples, and inside a SAMPLE the new sum lies in
[-2147450880, +2147385345], so the 32-bit register holds it exactly: it never overflows. -/
def Obligations.AccumulatorNeverOverflows : Prop :=
  (∀ (S : BitVec 16) (s : State), StreamStart S s → s.AccRange) ∧
  (∀ s t : State, s.Inv → s.AccRange → step s = .next t → t.AccRange) ∧
  (∀ (s : State) (f : Field), s.Inv → s.AccRange →
    (-2147450880 ≤ s.acc.toInt ∧ s.acc.toInt ≤ 2147385345) ∧
    (-2147450880 ≤ s.acc.toInt + f.toInt ∧ s.acc.toInt + f.toInt ≤ 2147385345) ∧
    (BitVec.ofInt 32 (s.acc.toInt + f.toInt)).toInt = s.acc.toInt + f.toInt)

/-! ### EOS and CLEAR -/

/-- R121: EOS in RUN discards the partial window and frame unchecked, ends the stream and emits DONE, and nothing else changes; in DONE
or ERR it is ignored; its field never matters. -/
def Obligations.EosEndsTheStream : Prop :=
  ∀ (s : State) (f : Field),
    (s.phase = .run →
      exec (.eos f) s = .next { s with acc := 0#32, scnt := 0#16, fbits := 0#10, bcnt := 0#4, phase := .done,
                                       out := s.out ++ [.done] }) ∧
    (s.phase ≠ .run → exec (.eos f) s = .next s)

/-- R122: in every phase CLEAR starts a new, empty stream with no output, loading `cfg_spb` from a non-zero field and keeping it on 0;
`CLEAR n` with `n = cfg_spb` is `CLEAR 0`; a loading CLEAR is the reset step with `n` in place of `SPB_RESET`. -/
def Obligations.ClearStartsNewStream : Prop :=
  ∀ (s : State) (n : Field),
    (n ≠ 0#16 →
      exec (.clear n) s = .next { s with cfgSpb := n, phase := .run, err := .none, acc := 0#32, scnt := 0#16, fbits := 0#10,
                                         bcnt := 0#4, chars := 0#32 } ∧
      exec (.clear n) s = .next { powerOnReset s with cfgSpb := n }) ∧
    exec (.clear 0#16) s = .next { s with phase := .run, err := .none, acc := 0#32, scnt := 0#16, fbits := 0#10, bcnt := 0#4,
                                          chars := 0#32 } ∧
    exec (.clear s.cfgSpb) s = exec (.clear 0#16) s

/-! ### The machine as a whole -/

/-- R124: every transition of `phase`, with the output it gives. The frame a SAMPLE completes has the start bit `fbits[0]` and as its stop
bit the window's bit. -/
def Obligations.PhaseMovesOnlyOnItsTransitions : Prop :=
  (∀ (s : State) (f : Field), s.phase = .run → ∃ t : State, exec (.sample f) s = .next t ∧
    (s.scnt.toNat + 1 < s.cfgSpb.toNat ∨ s.bcnt.toNat < 9 → t.phase = .run ∧ t.err = s.err ∧ t.out = s.out) ∧
    (s.cfgSpb.toNat ≤ s.scnt.toNat + 1 → 9 ≤ s.bcnt.toNat → s.fbits.getLsbD 0 = true →
      t.phase = .err ∧ t.err = .start ∧ t.out = s.out ++ [.errStart]) ∧
    (s.cfgSpb.toNat ≤ s.scnt.toNat + 1 → 9 ≤ s.bcnt.toNat → s.fbits.getLsbD 0 = false → s.acc.toInt + f.toInt ≤ 0 →
      t.phase = .err ∧ t.err = .stop ∧ t.out = s.out ++ [.errStop]) ∧
    (s.cfgSpb.toNat ≤ s.scnt.toNat + 1 → 9 ≤ s.bcnt.toNat → s.fbits.getLsbD 0 = false → 0 < s.acc.toInt + f.toInt →
      t.phase = .run ∧ t.err = s.err ∧ ∃ b : Byte, t.out = s.out ++ [.char b])) ∧
  (∀ (s : State) (f : Field), s.phase = .run → ∃ t : State, exec (.eos f) s = .next t ∧ t.phase = .done ∧ t.out = s.out ++ [.done]) ∧
  (∀ (s : State) (f : Field), s.phase = .done ∨ s.phase = .err → exec (.sample f) s = .next s ∧ exec (.eos f) s = .next s) ∧
  (∀ (s : State) (f : Field), ∃ t : State, exec (.clear f) s = .next t ∧ t.phase = .run ∧ t.out = s.out) ∧
  (∀ s : State, (powerOnReset s).phase = .run ∧ (powerOnReset s).out = s.out)

/-- No step but the reset step and CLEAR writes `cfg_spb` (R21) or leaves DONE or ERR (R144, R145): in an ended run every other step
changes nothing but what is still to be presented. -/
def Obligations.OnlyClearAndResetReconfigureOrRestart : Prop :=
  ∀ s t : State, step s = .next t → startsRun s = false →
    t.cfgSpb = s.cfgSpb ∧ (s.phase ≠ .run → t = { s with input := t.input })

/-- R145: after the end of a run, any number of SAMPLE and EOS transactions, in any order, emit nothing and change nothing. -/
def Obligations.NothingFollowsTheEndOfARun : Prop :=
  ∀ (is : List Instr) (s : State), s.refused = false → s.phase ≠ .run →
    (∀ i ∈ is, (∃ f, i = .sample f) ∨ (∃ f, i = .eos f)) → core.run is.length (presentAll is s) = .next s

/-- R46, R60: a step emits at most one event; `out_valid` is high exactly if there is one, and `out_word` is then its word. With no
event the last clause says that `out_word` is no word: the spec does not state what the port carries while `out_valid` is low, so that
clause is the model's choice (DESIGN CHOICE, log entry 6), no rule of the spec. -/
def Obligations.AtMostOneEventAStep : Prop :=
  ∀ s t : State, step s = .next t →
    ∃ evs : List OutputEvent, evs.length ≤ 1 ∧ t.out = s.out ++ evs ∧ outValid s t = !evs.isEmpty ∧
      outWord s t = evs.head?.map OutputEvent.word

/-- R67, R68: the fields of STATUS and the other views, and the values STATUS takes on a state of the block. -/
def Obligations.ViewsShowTheRegisters : Prop :=
  (∀ s : State, (statusView s).extractLsb' 0 2 = s.phase.code ∧ (statusView s).extractLsb' 2 2 = s.err.code ∧
    (statusView s).extractLsb' 4 4 = s.bcnt ∧ (statusView s).extractLsb' 8 8 = 0#8 ∧
    cfgSpbView s = s.cfgSpb ∧ charCountView s = s.chars) ∧
  (∀ s : State, s.Inv →
    ((statusView s).extractLsb' 4 4).toNat ≤ 9 ∧
    (s.phase = .run → (statusView s).toNat = 16 * s.bcnt.toNat) ∧ (s.phase = .done → statusView s = 0x0001#16) ∧
    (s.phase = .err → statusView s = 0x0006#16 ∧ s.err = .start ∨ statusView s = 0x000A#16 ∧ s.err = .stop)) ∧
  statusView State.reset = 0x0000#16

/-- R47: the registers after a run and the events it emits depend only on the registers before it and on what is presented; what was
emitted earlier plays no part. -/
def Obligations.RunDependsOnlyOnRegistersAndInput : Prop :=
  ∀ (n : Nat) (s s' t : State), SameRegisters s s' → s.refused = s'.refused → s.input = s'.input → core.run n s = .next t →
    ∃ (t' : State) (evs : List OutputEvent), core.run n s' = .next t' ∧ SameRegisters t t' ∧ t.input = t'.input ∧
      t.out = s.out ++ evs ∧ t'.out = s'.out ++ evs

/-- What follows a loading CLEAR does not depend on anything before it (R122, decision D10): from any two states the same
transactions then give the same registers and the same events. -/
def Obligations.RunAfterClearForgetsThePast : Prop :=
  ∀ (n : Field) (is : List Instr) (s s' t : State), n ≠ 0#16 → s.refused = false → s'.refused = false →
    core.run (is.length + 1) (presentAll (.clear n :: is) s) = .next t →
    ∃ (t' : State) (evs : List OutputEvent), core.run (is.length + 1) (presentAll (.clear n :: is) s') = .next t' ∧
      SameRegisters t t' ∧ t.out = s.out ++ evs ∧ t'.out = s'.out ++ evs

/-! ### Invariants -/

/-- R32: every step keeps the conditions on the registers. -/
def Obligations.InvariantKeptByEveryStep : Prop :=
  ∀ s t : State, s.Inv → step s = .next t → t.Inv

/-- R32, R160: the state after power-on reset meets them, for every legal `SPB_RESET`. -/
def Obligations.InvariantHoldsAtReset : Prop :=
  State.reset.Inv ∧ ∀ S : BitVec 16, S ≠ 0#16 → (State.powerOn S).Inv

/-- R32: every state reachable from power-on reset, whatever the host presents and whatever `SPB_RESET` is, meets them, and its mark is not
set. -/
def Obligations.ReachableStatesSatisfyInvariant : Prop :=
  ∀ (S : BitVec 16) (ps : List InputPins) (n : Nat) (t : State), S ≠ 0#16 →
    core.run n { State.powerOn S with input := ps } = .next t → t.Inv ∧ t.refused = false

/-- R10, R28: the events of the present run are CHARs, as many as `chars` counts modulo 2^32, ended by nothing, one DONE or one error
event as the phase says. Every step keeps it for the same run, except the reset step and CLEAR, after which it holds of a new,
empty run. -/
def Obligations.ObservationShapeKeptByEveryStep : Prop :=
  ∀ (base : List OutputEvent) (s t : State), s.Inv → RunShape base s → step s = .next t →
    (startsRun s = false → RunShape base t) ∧ (startsRun s = true → RunShape s.out t ∧ t.out = s.out)

/-- R10: at the start of a stream the run's observation is empty. -/
def Obligations.ObservationShapeHoldsAtStart : Prop :=
  ∀ (S : BitVec 16) (s : State), S ≠ 0#16 → StreamStart S s → RunShape s.out s ∧ s.Inv ∧ s.cfgSpb = S

/-! ### The reference decoder -/

/-- R83: the decision on the integer sum is the decision on the mean of the normalised samples. -/
def Obligations.SumDecisionEqualsMeanDecision : Prop :=
  ∀ (S : Nat) (win : List Int), 1 ≤ S → win.length = S →
    meanBit S win = sumBit win ∧ (windowMean S win = 0 ↔ win.sum = 0) ∧ (win.sum = 0 → sumBit win = false)

/-- R85: samples that are all below 0 give only bits 0 and fail with STOP at the first complete frame; all above 0, only bits 1 and START. -/
def Obligations.OneSidedStreamsFail : Prop :=
  ∀ (S : Nat) (xs : List Int), 1 ≤ S →
    ((∀ x ∈ xs, x < 0) → (∀ b ∈ bitsOf S xs, b = false) ∧ (10 * S ≤ xs.length → refDecode S xs = ([], .stop))) ∧
    ((∀ x ∈ xs, 0 < x) → (∀ b ∈ bitsOf S xs, b = true) ∧ (10 * S ≤ xs.length → refDecode S xs = ([], .start)))

/-- R103: the emitted byte is the sum of the data bits, position 1 the least significant. -/
def Obligations.FrameByteIsWeightedSum : Prop :=
  ∀ F : FrameWord, (frameByte F).toNat = ((List.range 8).map (fun j => (F.getLsbD (j + 1)).toNat * 2 ^ j)).sum ∧
    frameByte F = refByte ((List.range 10).map (fun k => F.getLsbD k))

/-- R107: for every byte its synthetic frame, pushed bit by bit into an empty frame register, emits exactly that byte, and the reference
parser recovers it. -/
def Obligations.SyntheticFrameRoundTrip : Prop :=
  ∀ (b : Byte) (s : State), s.fbits = 0#10 → s.bcnt = 0#4 →
    (frameBitsOf b).foldl (fun st x => pushBit x st) s = { s with chars := s.chars + 1#32, out := s.out ++ [.char b] } ∧
      decodeFrames [] [frameBitsOf b] = ([b], .ok)

/-- R108: a bit stream of `L` bits has `L / 10` complete frames; if all are valid the reference decoder gives one byte a frame; else it
gives the bytes of the frames before the first invalid one, which is the failing one. -/
def Obligations.FramesBeforeTheFirstInvalidOne : Prop :=
  ∀ bits : List Bool, (framesOf bits).length = bits.length / 10 ∧
    ((∀ F ∈ framesOf bits, F.getD 0 false = false ∧ F.getD 9 false = true) →
      decodeFrames [] (framesOf bits) = ((framesOf bits).map refByte, .ok)) ∧
    (∀ (before after : List (List Bool)) (F : List Bool), framesOf bits = before ++ F :: after →
      (∀ G ∈ before, G.getD 0 false = false ∧ G.getD 9 false = true) →
      (F.getD 0 false = true → decodeFrames [] (framesOf bits) = (before.map refByte, .start)) ∧
      (F.getD 0 false = false → F.getD 9 false = false → decodeFrames [] (framesOf bits) = (before.map refByte, .stop)))

/-! ### The block against the reference decoder -/

/-- R111: from every start of a stream the block emits exactly what the reference decoder gives, without EOS and with it, and stands in the
state R111 names. -/
def Obligations.BlockMatchesReferenceDecoder : Prop :=
  ∀ (S : BitVec 16) (s : State) (xs : List Field) (f : Field), S ≠ 0#16 → StreamStart S s →
    (∃ p : State, core.run xs.length (presentAll (sampleInstrs xs) s) = .next p ∧
      p.out = s.out ++ (refDecode S.toNat (sampleValues xs)).1.map OutputEvent.char
        ++ (refDecode S.toNat (sampleValues xs)).2.errorEvents) ∧
    (∃ t : State, core.run (xs.length + 1) (presentAll (sampleInstrs xs ++ [.eos f]) s) = .next t ∧
      t.out = s.out ++ (refDecode S.toNat (sampleValues xs)).1.map OutputEvent.char
        ++ [(refDecode S.toNat (sampleValues xs)).2.event] ∧
      t.phase = (refDecode S.toNat (sampleValues xs)).2.endPhase ∧ t.err = (refDecode S.toNat (sampleValues xs)).2.endErr ∧
      t.chars = BitVec.ofNat 32 (refDecode S.toNat (sampleValues xs)).1.length ∧
      t.acc = 0#32 ∧ t.scnt = 0#16 ∧ t.fbits = 0#10 ∧ t.bcnt = 0#4 ∧
      t.cfgSpb = S ∧ t.refused = false ∧ t.input = s.input)

/-- R126: the result read from the output stream of such a run is the reference decoder's: its Message, and its outcome. -/
def Obligations.RunResultIsTheDecodedMessage : Prop :=
  ∀ (S : BitVec 16) (s t : State) (xs : List Field) (f : Field) (msg : List Byte) (o : RefOutcome), S ≠ 0#16 → StreamStart S s →
    refDecode S.toNat (sampleValues xs) = (msg, o) →
    core.run (xs.length + 1) (presentAll (sampleInstrs xs ++ [.eos f]) s) = .next t →
    runEnded t = true ∧ (o = .ok → runResult s t = some (.success msg)) ∧ (o = .start → runResult s t = some (.startBitError msg)) ∧
      (o = .stop → runResult s t = some (.stopBitError msg))

/-- R29, R86: after `N` samples without a frame error the registers hold exactly the position in the stream, the sum of the incomplete
window and the bits of the incomplete frame. -/
def Obligations.RegistersHoldTheStreamPosition : Prop :=
  ∀ (S : BitVec 16) (s t : State) (xs : List Field), S ≠ 0#16 → StreamStart S s →
    (refDecode S.toNat (sampleValues xs)).2 = .ok →
    core.run xs.length (presentAll (sampleInstrs xs) s) = .next t →
    t.phase = .run ∧ t.err = .none ∧ t.scnt.toNat = xs.length % S.toNat ∧ t.bcnt.toNat = xs.length / S.toNat % 10 ∧
      t.chars.toNat = xs.length / S.toNat / 10 % 2 ^ 32 ∧
      t.acc.toInt = ((sampleValues xs).drop (S.toNat * (xs.length / S.toNat))).sum ∧
      (∀ k, k < t.bcnt.toNat →
        t.fbits.getLsbD k = (bitsOf S.toNat (sampleValues xs)).getD (10 * (xs.length / S.toNat / 10) + k) false)

/-- R70, R107 (95_test_vectors.md S7, S8): a message written with MSG at any drive level and any samplesPerBit comes out byte for byte, then
DONE at EOS. -/
def Obligations.MessageRoundTrip : Prop :=
  ∀ (S : BitVec 16) (s : State) (a : Nat) (text : List Byte) (f : Field), S ≠ 0#16 → StreamStart S s → 1 ≤ a → a ≤ 32767 →
    ∃ t : State,
      core.run ((msgInstrs S.toNat a text).length + 1) (presentAll (msgInstrs S.toNat a text ++ [.eos f]) s) = .next t ∧
      t.out = s.out ++ text.map OutputEvent.char ++ [.done] ∧ t.phase = .done ∧ t.err = .none ∧
      t.chars = BitVec.ofNat 32 text.length
end

