-- ==== Sys2Proof/Laws/State.lean ====
section
/-! SUPPORT. Laws/State.lean: what each shared update does to each field of State, one lemma per field, so that no later proof unfolds
a record update. -/

namespace Sys2Proof.Machine

@[simp] theorem emit_cfgSpb (e : OutputEvent) (s : State) : (emit e s).cfgSpb = s.cfgSpb := rfl
@[simp] theorem emit_phase (e : OutputEvent) (s : State) : (emit e s).phase = s.phase := rfl
@[simp] theorem emit_err (e : OutputEvent) (s : State) : (emit e s).err = s.err := rfl
@[simp] theorem emit_acc (e : OutputEvent) (s : State) : (emit e s).acc = s.acc := rfl
@[simp] theorem emit_scnt (e : OutputEvent) (s : State) : (emit e s).scnt = s.scnt := rfl
@[simp] theorem emit_fbits (e : OutputEvent) (s : State) : (emit e s).fbits = s.fbits := rfl
@[simp] theorem emit_bcnt (e : OutputEvent) (s : State) : (emit e s).bcnt = s.bcnt := rfl
@[simp] theorem emit_chars (e : OutputEvent) (s : State) : (emit e s).chars = s.chars := rfl
@[simp] theorem emit_out (e : OutputEvent) (s : State) : (emit e s).out = s.out ++ [e] := rfl
@[simp] theorem emit_refused (e : OutputEvent) (s : State) : (emit e s).refused = s.refused := rfl
@[simp] theorem emit_input (e : OutputEvent) (s : State) : (emit e s).input = s.input := rfl

@[simp] theorem frameError_cfgSpb (k : FrameErr) (s : State) : (frameError k s).cfgSpb = s.cfgSpb := rfl
@[simp] theorem frameError_phase (k : FrameErr) (s : State) : (frameError k s).phase = .err := rfl
@[simp] theorem frameError_err (k : FrameErr) (s : State) : (frameError k s).err = k.errCode := rfl
@[simp] theorem frameError_acc (k : FrameErr) (s : State) : (frameError k s).acc = s.acc := rfl
@[simp] theorem frameError_scnt (k : FrameErr) (s : State) : (frameError k s).scnt = s.scnt := rfl
@[simp] theorem frameError_fbits (k : FrameErr) (s : State) : (frameError k s).fbits = s.fbits := rfl
@[simp] theorem frameError_bcnt (k : FrameErr) (s : State) : (frameError k s).bcnt = s.bcnt := rfl
@[simp] theorem frameError_chars (k : FrameErr) (s : State) : (frameError k s).chars = s.chars := rfl
@[simp] theorem frameError_out (k : FrameErr) (s : State) : (frameError k s).out = s.out ++ [k.event] := rfl
@[simp] theorem frameError_refused (k : FrameErr) (s : State) : (frameError k s).refused = s.refused := rfl
@[simp] theorem frameError_input (k : FrameErr) (s : State) : (frameError k s).input = s.input := rfl

@[simp] theorem discardPartial_cfgSpb (s : State) : (discardPartial s).cfgSpb = s.cfgSpb := rfl
@[simp] theorem discardPartial_phase (s : State) : (discardPartial s).phase = s.phase := rfl
@[simp] theorem discardPartial_err (s : State) : (discardPartial s).err = s.err := rfl
@[simp] theorem discardPartial_acc (s : State) : (discardPartial s).acc = 0#32 := rfl
@[simp] theorem discardPartial_scnt (s : State) : (discardPartial s).scnt = 0#16 := rfl
@[simp] theorem discardPartial_fbits (s : State) : (discardPartial s).fbits = 0#10 := rfl
@[simp] theorem discardPartial_bcnt (s : State) : (discardPartial s).bcnt = 0#4 := rfl
@[simp] theorem discardPartial_chars (s : State) : (discardPartial s).chars = s.chars := rfl
@[simp] theorem discardPartial_out (s : State) : (discardPartial s).out = s.out := rfl
@[simp] theorem discardPartial_refused (s : State) : (discardPartial s).refused = s.refused := rfl
@[simp] theorem discardPartial_input (s : State) : (discardPartial s).input = s.input := rfl

@[simp] theorem newStream_cfgSpb (spb : BitVec 16) (s : State) : (newStream spb s).cfgSpb = spb := rfl
@[simp] theorem newStream_phase (spb : BitVec 16) (s : State) : (newStream spb s).phase = .run := rfl
@[simp] theorem newStream_err (spb : BitVec 16) (s : State) : (newStream spb s).err = .none := rfl
@[simp] theorem newStream_acc (spb : BitVec 16) (s : State) : (newStream spb s).acc = 0#32 := rfl
@[simp] theorem newStream_scnt (spb : BitVec 16) (s : State) : (newStream spb s).scnt = 0#16 := rfl
@[simp] theorem newStream_fbits (spb : BitVec 16) (s : State) : (newStream spb s).fbits = 0#10 := rfl
@[simp] theorem newStream_bcnt (spb : BitVec 16) (s : State) : (newStream spb s).bcnt = 0#4 := rfl
@[simp] theorem newStream_chars (spb : BitVec 16) (s : State) : (newStream spb s).chars = 0#32 := rfl
@[simp] theorem newStream_out (spb : BitVec 16) (s : State) : (newStream spb s).out = s.out := rfl
@[simp] theorem newStream_refused (spb : BitVec 16) (s : State) : (newStream spb s).refused = s.refused := rfl
@[simp] theorem newStream_input (spb : BitVec 16) (s : State) : (newStream spb s).input = s.input := rfl

@[simp] theorem powerOnReset_cfgSpb (s : State) : (powerOnReset s).cfgSpb = Config.spbReset := rfl
@[simp] theorem powerOnReset_phase (s : State) : (powerOnReset s).phase = .run := rfl
@[simp] theorem powerOnReset_err (s : State) : (powerOnReset s).err = .none := rfl
@[simp] theorem powerOnReset_acc (s : State) : (powerOnReset s).acc = 0#32 := rfl
@[simp] theorem powerOnReset_scnt (s : State) : (powerOnReset s).scnt = 0#16 := rfl
@[simp] theorem powerOnReset_fbits (s : State) : (powerOnReset s).fbits = 0#10 := rfl
@[simp] theorem powerOnReset_bcnt (s : State) : (powerOnReset s).bcnt = 0#4 := rfl
@[simp] theorem powerOnReset_chars (s : State) : (powerOnReset s).chars = 0#32 := rfl
@[simp] theorem powerOnReset_out (s : State) : (powerOnReset s).out = s.out := rfl
@[simp] theorem powerOnReset_refused (s : State) : (powerOnReset s).refused = s.refused := rfl
@[simp] theorem powerOnReset_input (s : State) : (powerOnReset s).input = s.input := rfl

@[simp] theorem markRefused_cfgSpb (s : State) : (markRefused s).cfgSpb = s.cfgSpb := rfl
@[simp] theorem markRefused_phase (s : State) : (markRefused s).phase = s.phase := rfl
@[simp] theorem markRefused_err (s : State) : (markRefused s).err = s.err := rfl
@[simp] theorem markRefused_acc (s : State) : (markRefused s).acc = s.acc := rfl
@[simp] theorem markRefused_scnt (s : State) : (markRefused s).scnt = s.scnt := rfl
@[simp] theorem markRefused_fbits (s : State) : (markRefused s).fbits = s.fbits := rfl
@[simp] theorem markRefused_bcnt (s : State) : (markRefused s).bcnt = s.bcnt := rfl
@[simp] theorem markRefused_chars (s : State) : (markRefused s).chars = s.chars := rfl
@[simp] theorem markRefused_out (s : State) : (markRefused s).out = s.out := rfl
@[simp] theorem markRefused_refused (s : State) : (markRefused s).refused = true := rfl
@[simp] theorem markRefused_input (s : State) : (markRefused s).input = s.input := rfl

@[simp] theorem presentAll_cfgSpb (is : List Instr) (s : State) : (presentAll is s).cfgSpb = s.cfgSpb := rfl
@[simp] theorem presentAll_phase (is : List Instr) (s : State) : (presentAll is s).phase = s.phase := rfl
@[simp] theorem presentAll_err (is : List Instr) (s : State) : (presentAll is s).err = s.err := rfl
@[simp] theorem presentAll_acc (is : List Instr) (s : State) : (presentAll is s).acc = s.acc := rfl
@[simp] theorem presentAll_scnt (is : List Instr) (s : State) : (presentAll is s).scnt = s.scnt := rfl
@[simp] theorem presentAll_fbits (is : List Instr) (s : State) : (presentAll is s).fbits = s.fbits := rfl
@[simp] theorem presentAll_bcnt (is : List Instr) (s : State) : (presentAll is s).bcnt = s.bcnt := rfl
@[simp] theorem presentAll_chars (is : List Instr) (s : State) : (presentAll is s).chars = s.chars := rfl
@[simp] theorem presentAll_out (is : List Instr) (s : State) : (presentAll is s).out = s.out := rfl
@[simp] theorem presentAll_refused (is : List Instr) (s : State) : (presentAll is s).refused = s.refused := rfl
@[simp] theorem presentAll_input (is : List Instr) (s : State) : (presentAll is s).input = is.map present ++ s.input := rfl

@[simp] theorem powerOn_cfgSpb (spb : BitVec 16) : (State.powerOn spb).cfgSpb = spb := rfl
@[simp] theorem powerOn_phase (spb : BitVec 16) : (State.powerOn spb).phase = .run := rfl
@[simp] theorem powerOn_err (spb : BitVec 16) : (State.powerOn spb).err = .none := rfl
@[simp] theorem powerOn_acc (spb : BitVec 16) : (State.powerOn spb).acc = 0#32 := rfl
@[simp] theorem powerOn_scnt (spb : BitVec 16) : (State.powerOn spb).scnt = 0#16 := rfl
@[simp] theorem powerOn_fbits (spb : BitVec 16) : (State.powerOn spb).fbits = 0#10 := rfl
@[simp] theorem powerOn_bcnt (spb : BitVec 16) : (State.powerOn spb).bcnt = 0#4 := rfl
@[simp] theorem powerOn_chars (spb : BitVec 16) : (State.powerOn spb).chars = 0#32 := rfl
@[simp] theorem powerOn_out (spb : BitVec 16) : (State.powerOn spb).out = [] := rfl
@[simp] theorem powerOn_refused (spb : BitVec 16) : (State.powerOn spb).refused = false := rfl
@[simp] theorem powerOn_input (spb : BitVec 16) : (State.powerOn spb).input = [] := rfl

end Sys2Proof.Machine
end

