-- ==== Sys2Proof/Laws/Words.lean ====
section
/-! SUPPORT. Laws/Words.lean: facts about the words and fields: the encoder's fields, the operands, the bits of a frame, and the
range of `SPB_RESET`. -/

namespace Sys2Proof

/-- Bits 17 and 16 of a word written `{op, fld}`. -/
theorem opField_append (op : BitVec 2) (f : Field) : opField (op ++ f) = op := by
  apply BitVec.eq_of_getLsbD_eq
  intro j hj
  simp only [opField, BitVec.getLsbD_extractLsb', hj, decide_true, Bool.true_and]
  rw [BitVec.getLsbD_append, if_neg (by omega)]
  congr 1
  omega

/-- Bits 15 to 0 of a word written `{op, fld}`. -/
theorem fldField_append (op : BitVec 2) (f : Field) : fldField (op ++ f) = f := by
  apply BitVec.eq_of_getLsbD_eq
  intro j hj
  simp only [fldField, BitVec.getLsbD_extractLsb', hj, decide_true, Bool.true_and, Nat.zero_add]
  rw [BitVec.getLsbD_append, if_pos hj]

/-- The encoder puts the row's `op` in bits 17 and 16. -/
@[simp] theorem opField_encode (i : Instr) : opField (encode i) = i.op := opField_append i.op i.fld

/-- The encoder puts the field in bits 15 to 0. -/
@[simp] theorem fldField_encode (i : Instr) : fldField (encode i) = i.fld := fldField_append i.op i.fld

/-- `SPB_RESET` as a number. -/
theorem spbReset_toNat : Config.spbReset.toNat = Config.spbResetLessOne.val + 1 := by
  have := Config.spbResetLessOne.isLt
  simp only [Config.spbReset, BitVec.toNat_ofNat]
  omega

/-- `SPB_RESET` is positive, as R6 asks. -/
theorem spbReset_pos : 1 ≤ Config.spbReset.toNat := by rw [spbReset_toNat]; omega

end Sys2Proof

namespace Sys2Proof.Machine

/-- SAMPLE's operand is the field read as two's complement (R63). -/
@[simp] theorem sampleOperand_eq (fld : Field) : sampleOperand fld = fld.toInt := by
  simp only [sampleOperand]
  exact BitVec.toInt_signExtend_of_le (by decide)

/-- CLEAR's operand is the field itself (R63). -/
@[simp] theorem clearOperand_eq (fld : Field) : clearOperand fld = fld := by
  simp [clearOperand]

/-- A sample lies in [-32768, 32767] (R42). -/
theorem sample_bounds (fld : Field) : -32768 ≤ fld.toInt ∧ fld.toInt ≤ 32767 := by
  have h1 := fld.le_toInt
  have h2 := fld.toInt_lt
  constructor <;> norm_num at * <;> omega

/-- Replacing bit `k` of a frame word leaves every other bit alone. -/
theorem getLsbD_frameWith (F : FrameWord) (k : Nat) (b : Bool) (hk : k < 10) (j : Nat) :
    (frameWith F k b).getLsbD j = if j = k then b else F.getLsbD j := by
  unfold frameWith
  by_cases hj : j < 10
  · by_cases hjk : j = k
    · subst hjk; cases b <;> simp [hj]
    · rcases Nat.lt_or_gt_of_ne hjk with h | h
      · cases b <;> simp [hj, hjk, h]
      · have hs : j - k ≠ 0 := by omega
        cases b <;> simp [hj, hjk, hs, Nat.not_lt.mpr (Nat.le_of_lt h)]
  · have h1 : 10 ≤ j := by omega
    have hjk : j ≠ k := by omega
    simp [BitVec.getLsbD_of_ge _ _ h1, hjk]

/-- A frame is valid exactly when its start bit is 0 and its stop bit 1 (R102). -/
theorem frameCheck_eq_none_iff (F : FrameWord) : frameCheck F = none ↔ F.getLsbD 0 = false ∧ F.getLsbD 9 = true := by
  unfold frameCheck startBit stopBit
  cases F.getLsbD 0 <;> cases F.getLsbD 9 <;> simp

/-- StartBitError whenever the start bit is 1, whatever the stop bit (R102). -/
theorem frameCheck_eq_start_iff (F : FrameWord) : frameCheck F = some .start ↔ F.getLsbD 0 = true := by
  unfold frameCheck startBit stopBit
  cases F.getLsbD 0 <;> cases F.getLsbD 9 <;> simp

/-- StopBitError exactly when the start bit is 0 and the stop bit is not 1 (R102). -/
theorem frameCheck_eq_stop_iff (F : FrameWord) : frameCheck F = some .stop ↔ F.getLsbD 0 = false ∧ F.getLsbD 9 = false := by
  unfold frameCheck startBit stopBit
  cases F.getLsbD 0 <;> cases F.getLsbD 9 <;> simp

/-- Bit `j` of the data byte is bit `j + 1` of the frame (R103). -/
theorem getLsbD_frameByte (F : FrameWord) (j : Nat) (hj : j < 8) : (frameByte F).getLsbD j = F.getLsbD (j + 1) := by
  simp [frameByte, hj, Nat.add_comm]

end Sys2Proof.Machine
end

