-- ==== Sys2Proof/Laws/Ops.lean ====
section
/-! SUPPORT. Laws/Ops.lean: for each shared operation and each meaning, once, everything it can do. -/

namespace Sys2Proof.Machine

/-- All the completion of a frame can do (R101): StartBitError, StopBitError, or the character. -/
theorem completeFrame_cases (F : FrameWord) (s : State) :
    (F.getLsbD 0 = true ∧
      completeFrame F s = { s with fbits := 0#10, bcnt := 0#4, phase := .err, err := .start, out := s.out ++ [.errStart] }) ∨
    (F.getLsbD 0 = false ∧ F.getLsbD 9 = false ∧
      completeFrame F s = { s with fbits := 0#10, bcnt := 0#4, phase := .err, err := .stop, out := s.out ++ [.errStop] }) ∨
    (F.getLsbD 0 = false ∧ F.getLsbD 9 = true ∧
      completeFrame F s = { s with fbits := 0#10, bcnt := 0#4, chars := s.chars + 1#32, out := s.out ++ [.char (frameByte F)] }) := by
  unfold completeFrame
  cases h : frameCheck F with
  | none =>
    obtain ⟨h0, h9⟩ := (frameCheck_eq_none_iff F).1 h
    exact .inr (.inr ⟨h0, h9, rfl⟩)
  | some k =>
    cases k with
    | start => exact .inl ⟨(frameCheck_eq_start_iff F).1 h, rfl⟩
    | stop =>
      obtain ⟨h0, h9⟩ := (frameCheck_eq_stop_iff F).1 h
      exact .inr (.inl ⟨h0, h9, rfl⟩)

/-- All PushBit can do (R101): store a bit, or complete a frame whose last bit is the new one. The frame's other bits are those of
`fbits`. -/
theorem pushBit_cases (b : Bool) (s : State) :
    (s.bcnt.toNat < 9 ∧
      pushBit b s = { s with fbits := frameWith s.fbits s.bcnt.toNat b, bcnt := s.bcnt + 1#4 }) ∨
    (9 ≤ s.bcnt.toNat ∧ s.fbits.getLsbD 0 = true ∧
      pushBit b s = { s with fbits := 0#10, bcnt := 0#4, phase := .err, err := .start, out := s.out ++ [.errStart] }) ∨
    (9 ≤ s.bcnt.toNat ∧ s.fbits.getLsbD 0 = false ∧ b = false ∧
      pushBit b s = { s with fbits := 0#10, bcnt := 0#4, phase := .err, err := .stop, out := s.out ++ [.errStop] }) ∨
    (9 ≤ s.bcnt.toNat ∧ s.fbits.getLsbD 0 = false ∧ b = true ∧
      pushBit b s =
        { s with fbits := 0#10, bcnt := 0#4, chars := s.chars + 1#32,
                 out := s.out ++ [.char (frameByte (frameWith s.fbits 9 b))] }) := by
  unfold pushBit
  split
  · rename_i h; exact .inl ⟨h, rfl⟩
  · rename_i h
    have h9 : 9 ≤ s.bcnt.toNat := by omega
    rcases completeFrame_cases (frameWith s.fbits 9 b) s with ⟨h0, e⟩ | ⟨h0, h1, e⟩ | ⟨h0, h1, e⟩ <;>
      simp only [getLsbD_frameWith _ _ _ (by decide : 9 < 10)] at * <;> simp at h0
    · exact .inr (.inl ⟨h9, h0, e⟩)
    · exact .inr (.inr (.inl ⟨h9, h0, by simpa using h1, e⟩))
    · exact .inr (.inr (.inr ⟨h9, h0, by simpa using h1, e⟩))

/-- PushBit reads and writes only the frame registers, the flags, `chars` and `out`: every other field stays. -/
theorem pushBit_frame (b : Bool) (s : State) :
    (pushBit b s).cfgSpb = s.cfgSpb ∧ (pushBit b s).acc = s.acc ∧ (pushBit b s).scnt = s.scnt ∧
      (pushBit b s).refused = s.refused ∧ (pushBit b s).input = s.input := by
  rcases pushBit_cases b s with ⟨_, e⟩ | ⟨_, _, e⟩ | ⟨_, _, _, e⟩ | ⟨_, _, _, e⟩ <;> rw [e] <;> exact ⟨rfl, rfl, rfl, rfl, rfl⟩

/-- PushBit appends at most one event (R46). -/
theorem pushBit_out (b : Bool) (s : State) : ∃ evs : List OutputEvent, evs.length ≤ 1 ∧ (pushBit b s).out = s.out ++ evs := by
  rcases pushBit_cases b s with ⟨_, e⟩ | ⟨_, _, e⟩ | ⟨_, _, _, e⟩ | ⟨_, _, _, e⟩ <;> rw [e]
  · exact ⟨[], by simp, by simp⟩
  all_goals exact ⟨_, by simp, rfl⟩

/-- All a sample taken in RUN can do (R84): extend the window, or close it and pass its bit to the frame path. -/
theorem acceptSample_cases (x : Int) (s : State) :
    (s.scnt.toNat + 1 < s.cfgSpb.toNat ∧
      acceptSample x s = { s with acc := BitVec.ofInt 32 (s.acc.toInt + x), scnt := BitVec.ofNat 16 (s.scnt.toNat + 1) }) ∨
    (s.cfgSpb.toNat ≤ s.scnt.toNat + 1 ∧
      acceptSample x s = pushBit (nrzBit (s.acc.toInt + x)) { s with acc := 0#32, scnt := 0#16 }) := by
  unfold acceptSample
  by_cases h : s.scnt.toNat + 1 < s.cfgSpb.toNat
  · exact .inl ⟨h, by simp [h]⟩
  · exact .inr ⟨by omega, by simp [h]⟩

/-- SAMPLE in RUN takes the sample (R84). -/
theorem sampleState_run (fld : Field) (s : State) (h : s.phase = .run) : sampleState fld s = acceptSample fld.toInt s := by
  simp [sampleState, h]

/-- SAMPLE outside RUN is ignored (R84, R124). -/
theorem sampleState_ended (fld : Field) (s : State) (h : s.phase ≠ .run) : sampleState fld s = s := by
  unfold sampleState
  cases hp : s.phase <;> first | exact absurd hp h | rfl

/-- All SAMPLE can do, row by row of the write table of R30: ignored; window extended; window closed inside a frame; frame completed
with StartBitError, with StopBitError, or with its character. -/
theorem sampleState_cases (fld : Field) (s : State) :
    (s.phase ≠ .run ∧ sampleState fld s = s) ∨
    (s.phase = .run ∧ s.scnt.toNat + 1 < s.cfgSpb.toNat ∧
      sampleState fld s =
        { s with acc := BitVec.ofInt 32 (s.acc.toInt + fld.toInt), scnt := BitVec.ofNat 16 (s.scnt.toNat + 1) }) ∨
    (s.phase = .run ∧ s.cfgSpb.toNat ≤ s.scnt.toNat + 1 ∧ s.bcnt.toNat < 9 ∧
      sampleState fld s =
        { s with acc := 0#32, scnt := 0#16, fbits := frameWith s.fbits s.bcnt.toNat (decide (0 < s.acc.toInt + fld.toInt)),
                 bcnt := s.bcnt + 1#4 }) ∨
    (s.phase = .run ∧ s.cfgSpb.toNat ≤ s.scnt.toNat + 1 ∧ 9 ≤ s.bcnt.toNat ∧ s.fbits.getLsbD 0 = true ∧
      sampleState fld s =
        { s with acc := 0#32, scnt := 0#16, fbits := 0#10, bcnt := 0#4, phase := .err, err := .start,
                 out := s.out ++ [.errStart] }) ∨
    (s.phase = .run ∧ s.cfgSpb.toNat ≤ s.scnt.toNat + 1 ∧ 9 ≤ s.bcnt.toNat ∧ s.fbits.getLsbD 0 = false ∧
      s.acc.toInt + fld.toInt ≤ 0 ∧
      sampleState fld s =
        { s with acc := 0#32, scnt := 0#16, fbits := 0#10, bcnt := 0#4, phase := .err, err := .stop,
                 out := s.out ++ [.errStop] }) ∨
    (s.phase = .run ∧ s.cfgSpb.toNat ≤ s.scnt.toNat + 1 ∧ 9 ≤ s.bcnt.toNat ∧ s.fbits.getLsbD 0 = false ∧
      0 < s.acc.toInt + fld.toInt ∧
      sampleState fld s =
        { s with acc := 0#32, scnt := 0#16, fbits := 0#10, bcnt := 0#4, chars := s.chars + 1#32,
                 out := s.out ++ [.char (frameByte (frameWith s.fbits 9 true))] }) := by
  by_cases hp : s.phase = .run
  · refine .inr ?_
    rw [sampleState_run fld s hp]
    rcases acceptSample_cases fld.toInt s with ⟨hn, e⟩ | ⟨hn, e⟩
    · exact .inl ⟨hp, hn, e⟩
    · refine .inr ?_
      rw [e]
      rcases pushBit_cases (nrzBit (s.acc.toInt + fld.toInt)) { s with acc := 0#32, scnt := 0#16 } with
        ⟨hb, e'⟩ | ⟨hb, h0, e'⟩ | ⟨hb, h0, h9, e'⟩ | ⟨hb, h0, h9, e'⟩
      · exact .inl ⟨hp, hn, hb, e'⟩
      · exact .inr (.inl ⟨hp, hn, hb, h0, e'⟩)
      · refine .inr (.inr (.inl ⟨hp, hn, hb, h0, ?_, e'⟩))
        simpa [nrzBit] using h9
      · rw [h9] at e' ⊢
        refine .inr (.inr (.inr ⟨hp, hn, hb, h0, ?_, e'⟩))
        simpa [nrzBit] using h9
  · exact .inl ⟨hp, sampleState_ended fld s hp⟩

/-- EOS in RUN (R121). -/
theorem eosState_run (s : State) (h : s.phase = .run) :
    eosState s = { s with acc := 0#32, scnt := 0#16, fbits := 0#10, bcnt := 0#4, phase := .done, out := s.out ++ [.done] } := by
  simp [eosState, h, emit, discardPartial]

/-- EOS outside RUN is ignored (R121, R124). -/
theorem eosState_ended (s : State) (h : s.phase ≠ .run) : eosState s = s := by
  unfold eosState
  cases hp : s.phase <;> first | exact absurd hp h | rfl

/-- All one transaction can do: the three meanings each answer a next state, the reserved one is refused with the mark set. -/
theorem exec_cases (i : Instr) (s : State) :
    (∃ f, i = .sample f ∧ exec i s = .next (sampleState f s)) ∨
    (∃ f, i = .eos f ∧ exec i s = .next (eosState s)) ∨
    (∃ f, i = .clear f ∧ exec i s = .next (newStream (clearSpb f s) s)) ∨
    (∃ f, i = .reserved f ∧ exec i s = .refused (.reservedOp (markRefused s))) := by
  cases i with
  | sample f => exact .inl ⟨f, rfl, rfl⟩
  | eos f => exact .inr (.inl ⟨f, rfl, rfl⟩)
  | clear f => exact .inr (.inr (.inl ⟨f, rfl, rfl⟩))
  | reserved f => exact .inr (.inr (.inr ⟨f, rfl, rfl⟩))

/-- SAMPLE leaves `cfg_spb`, the mark and the input alone, and appends at most one event. -/
theorem sampleState_frame (fld : Field) (s : State) :
    (sampleState fld s).cfgSpb = s.cfgSpb ∧ (sampleState fld s).refused = s.refused ∧ (sampleState fld s).input = s.input ∧
      ∃ evs : List OutputEvent, evs.length ≤ 1 ∧ (sampleState fld s).out = s.out ++ evs := by
  by_cases h : s.phase = .run
  · rw [sampleState_run fld s h]
    rcases acceptSample_cases fld.toInt s with ⟨_, e⟩ | ⟨_, e⟩ <;> rw [e]
    · exact ⟨rfl, rfl, rfl, [], by simp, by simp⟩
    · obtain ⟨h1, -, -, h4, h5⟩ := pushBit_frame (nrzBit (s.acc.toInt + fld.toInt)) { s with acc := 0#32, scnt := 0#16 }
      exact ⟨h1, h4, h5, pushBit_out _ _⟩
  · rw [sampleState_ended fld s h]
    exact ⟨rfl, rfl, rfl, [], by simp, by simp⟩

/-- EOS leaves `cfg_spb`, `err`, `chars`, the mark and the input alone, and appends at most one event. -/
theorem eosState_frame (s : State) :
    (eosState s).cfgSpb = s.cfgSpb ∧ (eosState s).err = s.err ∧ (eosState s).chars = s.chars ∧
      (eosState s).refused = s.refused ∧ (eosState s).input = s.input ∧
      ∃ evs : List OutputEvent, evs.length ≤ 1 ∧ (eosState s).out = s.out ++ evs := by
  by_cases h : s.phase = .run
  · rw [eosState_run s h]; exact ⟨rfl, rfl, rfl, rfl, rfl, [.done], by simp, rfl⟩
  · rw [eosState_ended s h]; exact ⟨rfl, rfl, rfl, rfl, rfl, [], by simp, by simp⟩

/-- What is still to be presented plays no part in SAMPLE. -/
theorem sampleState_input (fld : Field) (s : State) (ps : List InputPins) :
    sampleState fld { s with input := ps } = { sampleState fld s with input := ps } := by
  obtain ⟨c, p, er, a, n, fb, b, ch, o, r, i⟩ := s
  cases p with
  | done => rfl
  | err => rfl
  | run =>
    simp only [sampleState, acceptSample, pushBit]
    split
    · rfl
    · split
      · rfl
      · simp only [completeFrame]
        split <;> rfl

/-- Nor in EOS. -/
theorem eosState_input (s : State) (ps : List InputPins) :
    eosState { s with input := ps } = { eosState s with input := ps } := by
  obtain ⟨c, p, er, a, n, fb, b, ch, o, r, i⟩ := s
  cases p <;> rfl

end Sys2Proof.Machine
end

