-- ==== Sys2Proof/Laws/PerInstr.lean ====
section
/-! SUPPORT. Laws/PerInstr.lean: statements made for every transaction of the opcode map, one lemma per constructor. -/

namespace Sys2Proof.Laws

/-- The encoded word of a transaction is of the row the opcode map gives it (R62): its `op` and the row's match under the mask. -/
def EncodedRow.Statement (i : Instr) : Prop :=
  encode i &&& 0x30000#18 = (i.op ++ 0#16 : InWord) ∧ fldField (encode i) = i.fld

/-- Masking off the field leaves `op` alone. -/
theorem mask_encode (op : BitVec 2) (f : Field) : (op ++ f) &&& 0x30000#18 = (op ++ 0#16 : InWord) := by
  have h : (0x30000#18 : InWord) = (0b11#2 ++ 0#16 : InWord) := by decide
  rw [h, BitVec.and_append]
  congr 1
  · have : (0b11#2 : BitVec 2) = BitVec.allOnes 2 := by decide
    rw [this, BitVec.and_allOnes]
  · simp

theorem EncodedRow.sample (fld : Field) : EncodedRow.Statement (.sample fld) := ⟨mask_encode _ _, fldField_encode _⟩

theorem EncodedRow.eos (fld : Field) : EncodedRow.Statement (.eos fld) := ⟨mask_encode _ _, fldField_encode _⟩

theorem EncodedRow.clear (fld : Field) : EncodedRow.Statement (.clear fld) := ⟨mask_encode _ _, fldField_encode _⟩

theorem EncodedRow.reserved (fld : Field) : EncodedRow.Statement (.reserved fld) := ⟨mask_encode _ _, fldField_encode _⟩

end Sys2Proof.Laws
end

