-- ==== Sys2Proof/Laws/Step.lean ====
section
/-! SUPPORT. Laws/Step.lean: what the fetch finds and all one step can do (R120). -/

namespace Sys2Proof.Machine

/-- A presentation that is a step is the next one. -/
theorem nextPresented_cons_step (p : InputPins) (ps : List InputPins) (h : p.isStep = true) :
    nextPresented (p :: ps) = some (p, ps) := by simp [nextPresented, h]

/-- A presentation that is no step is passed over. -/
theorem nextPresented_cons_idle (p : InputPins) (ps : List InputPins) (h : p.isStep = false) :
    nextPresented (p :: ps) = nextPresented ps := by simp [nextPresented, h]

/-- What is found is a step, and it was to come. -/
theorem nextPresented_some (ps : List InputPins) (p : InputPins) (rest : List InputPins)
    (h : nextPresented ps = some (p, rest)) :
    p.isStep = true ∧ ∃ idle, ps = idle ++ p :: rest ∧ ∀ q ∈ idle, q.isStep = false := by
  induction ps with
  | nil => simp [nextPresented] at h
  | cons q qs ih =>
    by_cases hq : q.isStep = true
    · rw [nextPresented_cons_step q qs hq] at h
      obtain ⟨rfl, rfl⟩ := by simpa using h
      exact ⟨hq, [], rfl, by simp⟩
    · have hq' : q.isStep = false := by simpa using hq
      rw [nextPresented_cons_idle q qs hq'] at h
      obtain ⟨h1, idle, h2, h3⟩ := ih h
      refine ⟨h1, q :: idle, by simp [h2], ?_⟩
      intro r hr
      rcases List.mem_cons.1 hr with rfl | hr
      · exact hq'
      · exact h3 r hr

/-- The fetch of a state that holds the `refused` mark. -/
theorem fetch_refused (s : State) (h : s.refused = true) : fetch s = .stop .afterReserved := by simp [fetch, h]

/-- The fetch of a state that does not, by what is presented next. -/
theorem fetch_eq (s : State) (h : s.refused = false) :
    fetch s = match nextPresented s.input with
      | none => .stop .nothingPresented
      | some (p, rest) =>
        if p.rst then .reset { s with input := rest } else .transaction (decode p.inWord) { s with input := rest } := by
  unfold fetch
  rw [h]
  cases nextPresented s.input <;> rfl

/-- The fetch of a state whose next presentation is a word. -/
theorem fetch_presentWord (s : State) (w : InWord) (rest : List InputPins) (h : s.refused = false)
    (hi : s.input = presentWord w :: rest) : fetch s = .transaction (decode w) { s with input := rest } := by
  rw [fetch_eq s h, hi]; rfl

/-- All one step that answers a next state can do: it had no `refused` mark, and it was the reset step, a SAMPLE, an EOS or a CLEAR, in
the state whose presentation has been taken. -/
theorem step_cases (s t : State) (h : step s = .next t) :
    s.refused = false ∧ ∃ rest : List InputPins,
      (fetch s = .reset { s with input := rest } ∧ t = powerOnReset { s with input := rest }) ∨
      (∃ f, fetch s = .transaction (.sample f) { s with input := rest } ∧ t = sampleState f { s with input := rest }) ∨
      (∃ f, fetch s = .transaction (.eos f) { s with input := rest } ∧ t = eosState { s with input := rest }) ∨
      (∃ f, fetch s = .transaction (.clear f) { s with input := rest } ∧
        t = newStream (clearSpb f { s with input := rest }) { s with input := rest }) := by
  by_cases hr : s.refused = true
  · simp [step, fetch_refused s hr] at h
  · have hr' : s.refused = false := by simpa using hr
    refine ⟨hr', ?_⟩
    have hf := fetch_eq s hr'
    unfold step at h
    cases hn : nextPresented s.input with
    | none => rw [hf, hn] at h; simp at h
    | some pr =>
      obtain ⟨p, rest⟩ := pr
      simp only [hn] at hf
      refine ⟨rest, ?_⟩
      by_cases hp : p.rst = true
      · rw [if_pos hp] at hf
        rw [hf] at h
        exact .inl ⟨hf, by simpa using h.symm⟩
      · rw [if_neg hp] at hf
        rw [hf] at h
        rcases exec_cases (decode p.inWord) { s with input := rest } with ⟨f, hi, e⟩ | ⟨f, hi, e⟩ | ⟨f, hi, e⟩ | ⟨f, hi, e⟩
        · refine .inr (.inl ⟨f, by rw [hf, hi], ?_⟩); simpa [e] using h.symm
        · refine .inr (.inr (.inl ⟨f, by rw [hf, hi], ?_⟩)); simpa [e] using h.symm
        · refine .inr (.inr (.inr ⟨f, by rw [hf, hi], ?_⟩)); simpa [e] using h.symm
        · simp [e] at h

/-- A run of no steps. -/
@[simp] theorem run_zero (s : State) : core.run 0 s = .next s := rfl

/-- A run whose first step answers a next state goes on from it. -/
theorem run_succ (n : Nat) (s u : State) (h : step s = .next u) : core.run (n + 1) s = core.run n u := by
  have h' : core.step s = .next u := h
  simp only [Host.Core.run, h']

/-- A run that answers a next state made its first step, and went on from it. -/
theorem run_succ_next (n : Nat) (s t : State) (h : core.run (n + 1) s = .next t) :
    ∃ u, step s = .next u ∧ core.run n u = .next t := by
  have hs : core.step s = step s := rfl
  cases hu : step s with
  | next u => exact ⟨u, rfl, by rw [← run_succ n s u hu]; exact h⟩
  | fault r => cases r
  | refused r =>
    simp only [Host.Core.run, hs, hu] at h
    cases h

/-- A run may be cut in two. -/
theorem run_add (m n : Nat) (s u : State) (h : core.run m s = .next u) : core.run (m + n) s = core.run n u := by
  induction m generalizing s with
  | zero =>
    have : s = u := by
      have h' : (Host.Outcome.next s : Host.Outcome State Fault Refusal) = .next u := h
      cases h'; rfl
    subst this
    rw [Nat.zero_add]
  | succ m ih =>
    obtain ⟨v, hv, hr⟩ := run_succ_next m s u h
    rw [Nat.add_right_comm, run_succ (m + n) s v hv]
    exact ih v hr

end Sys2Proof.Machine
end

