-- ==== Sys2Proof/Machine/Trace.lean ====
section
/-! DEFINITION. Machine/Trace.lean: the text of the trace language (spec 30_encoding.md R69, R70): reading a line of an input program,
and writing an output event. The spelling of numbers and spaces is notes/assumptions/7.md, how the intended `S` reaches the assembler
notes/assumptions/14.md, how the character of a CHAR is written notes/assumptions/15.md. -/

namespace Sys2Proof.Machine

/-- The double quote that encloses the text of MSG. -/
def quoteMark : Char := Char.ofNat 34

/-- The value of a digit in base 10 or 16; capital and small letters alike. -/
def digitValue (base : Nat) (c : Char) : Option Nat :=
  let n := c.toNat
  let v := if 48 ≤ n ∧ n ≤ 57 then n - 48 else if 65 ≤ n ∧ n ≤ 70 then n - 55 else if 97 ≤ n ∧ n ≤ 102 then n - 87 else 16
  if v < base then some v else none

/-- The number whose digits these are, after those that made `acc`. -/
def readDigits (base : Nat) (acc : Nat) : List Char → Option Nat
  | [] => some acc
  | c :: cs =>
    match digitValue base c with
    | some v => readDigits base (acc * base + v) cs
    | none => none

/-- An unsigned number: decimal, or hexadecimal after `0x` (R8). -/
def readNat : List Char → Option Nat
  | [] => none
  | [c] => readDigits 10 0 [c]
  | c :: x :: ds => if c = '0' ∧ x = 'x' then (if ds = [] then none else readDigits 16 0 ds) else readDigits 10 0 (c :: x :: ds)

/-- A number with or without a sign. -/
def readInt : List Char → Option Int
  | [] => none
  | c :: cs =>
    if c = '-' then (readNat cs).map (fun n => -(n : Int))
    else if c = '+' then (readNat cs).map (fun n => (n : Int))
    else (readNat (c :: cs)).map (fun n => (n : Int))

/-- The word under construction, if it has begun, put before the tokens already read (latest first). -/
def endWord (cur : List Char) (toks : List TraceToken) : List TraceToken :=
  if cur = [] then toks else .word cur.reverse :: toks

/-- The tokens of a line; `#` starts a comment outside a quoted text (R69), `@` starts a word of its own. -/
def lexLine (cur : List Char) (inText : Bool) (toks : List TraceToken) : List Char → Option (List TraceToken)
  | [] => if inText then none else some (endWord cur toks).reverse
  | c :: cs =>
    if inText then
      (if c = quoteMark then lexLine [] false (.quoted cur.reverse :: toks) cs else lexLine (c :: cur) true toks cs)
    else if c = '#' then some (endWord cur toks).reverse
    else if c = quoteMark then lexLine [] true (endWord cur toks) cs
    else if c = ' ' ∨ c = '\t' then lexLine [] false (endWord cur toks) cs
    else if c = '[' ∨ c = ']' ∨ c = ',' then lexLine [] false (.mark c :: endWord cur toks) cs
    else if c = '@' then lexLine [c] false (endWord cur toks) cs
    else lexLine (c :: cur) false toks cs

/-- The drive suffix `@A` at the end of a line, or nothing (R70). -/
def readDrive : List TraceToken → Option (Option Nat)
  | [] => some none
  | [.word (c :: ds)] => if c = '@' then (readNat ds).map some else none
  | _ => none

/-- A bit, written 0 or 1. -/
def readBit : TraceToken → Option Bool
  | .word [c] => if c = '0' then some false else if c = '1' then some true else none
  | _ => none

/-- The bits of a list after its `[`, to its `]`, and what follows. -/
def readBits : List TraceToken → Option (List Bool × List TraceToken)
  | t :: .mark c :: ts =>
    match readBit t with
    | none => none
    | some b =>
      if c = ']' then some ([b], ts)
      else if c = ',' then (readBits ts).map (fun r => (b :: r.1, r.2))
      else none
  | _ => none

/-- SAMPLE and its operand. -/
def readSampleLine : List TraceToken → Option TraceLine
  | [.word v] => (readInt v).map TraceLine.sample
  | _ => none

/-- EOS, which has no operand. -/
def readEosLine : List TraceToken → Option TraceLine
  | [] => some .eos
  | _ => none

/-- CLEAR with its operand, or alone. -/
def readClearLine : List TraceToken → Option TraceLine
  | [] => some (.clear none)
  | [.word n] => (readNat n).map (fun k => .clear (some k))
  | _ => none

/-- LEVEL v n. -/
def readLevelLine : List TraceToken → Option TraceLine
  | [.word v, .word n] =>
    match readInt v, readNat n with
    | some a, some k => some (.level a k)
    | _, _ => none
  | _ => none

/-- BIT b, with or without a drive suffix. -/
def readBitLine : List TraceToken → Option TraceLine
  | t :: ts =>
    match readBit t, readDrive ts with
    | some b, some d => some (.bit b d)
    | _, _ => none
  | [] => none

/-- FRAMEBITS [b0, ..., b9], with or without a drive suffix. -/
def readFrameBitsLine : List TraceToken → Option TraceLine
  | .mark c :: ts =>
    if c = '[' then
      match readBits ts with
      | some (bs, rest) => (readDrive rest).map (fun d => .frameBits bs d)
      | none => none
    else none
  | _ => none

/-- FRAME x, with or without a drive suffix. -/
def readFrameLine : List TraceToken → Option TraceLine
  | .word x :: ts =>
    match readNat x, readDrive ts with
    | some b, some d => some (.frame b d)
    | _, _ => none
  | _ => none

/-- MSG and its quoted text, with or without a drive suffix. -/
def readMsgLine : List TraceToken → Option TraceLine
  | .quoted cs :: ts => (readDrive ts).map (fun d => .msg (cs.map Char.toNat) d)
  | _ => none

/-- The line whose first word is its name (R69, R70). -/
def readLine : List TraceToken → Option TraceLine
  | .word k :: args =>
    if k = "SAMPLE".toList then readSampleLine args
    else if k = "EOS".toList then readEosLine args
    else if k = "CLEAR".toList then readClearLine args
    else if k = "LEVEL".toList then readLevelLine args
    else if k = "BIT".toList then readBitLine args
    else if k = "FRAMEBITS".toList then readFrameBitsLine args
    else if k = "FRAME".toList then readFrameLine args
    else if k = "MSG".toList then readMsgLine args
    else none
  | _ => none

/-- The lines a text line stands for: one, or none where it is blank or a comment; rejected where it is neither (R69). -/
def parseLine (cs : List Char) : Option (List TraceLine) :=
  match lexLine [] false [] cs with
  | none => none
  | some [] => some []
  | some toks => (readLine toks).map (fun l => [l])

/-- The words one line of text assembles to, for a writer who intends `spb` to be `cfg_spb` when the line runs: R70's `S`, which the
spec gives no spelling and the model takes beside the line (R69, R70; DESIGN CHOICE, notes/assumptions/14.md). -/
def assembleText (spb : Nat) (cs : List Char) : Option (List InWord) :=
  match parseLine cs with
  | none => none
  | some [] => some []
  | some (l :: _) => l.assemble spb

/-- The words a whole program assembles to, one transaction per line (R69), each line beside the `S` its writer intends to be current
when it runs, so that the lines after a CLEAR may be written for another `S` (R70). The spec gives no syntax by which `S` reaches the
assembler: one number a line is the model's choice (DESIGN CHOICE, notes/assumptions/14.md). -/
def assembleProgram : List (Nat × List Char) → Option (List InWord)
  | [] => some []
  | (spb, cs) :: rest =>
    match assembleText spb cs, assembleProgram rest with
    | some ws, some more => some (ws ++ more)
    | _, _ => none

/-- A hexadecimal digit, capital letters. -/
def hexDigit (n : Nat) : Char := if n < 10 then Char.ofNat (48 + n) else Char.ofNat (55 + n)

/-- An output event as text: `CHAR 0xNN`, `ERR_START`, `ERR_STOP`, `DONE` (R69). -/
def OutputEvent.text : OutputEvent → List Char
  | .char b => "CHAR 0x".toList ++ [hexDigit (b.toNat / 16), hexDigit (b.toNat % 16)]
  | .errStart => "ERR_START".toList
  | .errStop => "ERR_STOP".toList
  | .done => "DONE".toList

/-- The same, a CHAR followed by its character in quotes, which R69 makes optional. Which quotes they are and what stands for a byte that
cannot be printed the spec leaves open: double quotes, and for every byte the character of that code as it is (DESIGN CHOICE,
notes/assumptions/15.md). -/
def OutputEvent.textQuoted : OutputEvent → List Char
  | .char b => (OutputEvent.char b).text ++ [' ', quoteMark, Char.ofNat b.toNat, quoteMark]
  | .errStart => OutputEvent.errStart.text
  | .errStop => OutputEvent.errStop.text
  | .done => OutputEvent.done.text

end Sys2Proof.Machine
end

