-- ==== Sys2Proof/Tests/Slice0.lean ====
section
/-! SUPPORT. Tests/Slice0.lean: the model's own tests. Expected values come from the spec: its encodings (30_encoding.md R61 to R70) and
its vectors (95_test_vectors.md), named in each docstring. Then, for each statement with hypotheses, a state and operands that meet
them. -/

namespace Sys2Proof.Tests

open Sys2Proof Sys2Proof.Machine

/-! ### Decoding: words written out from R61 and R62 -/

/-- V6: `SAMPLE -50` is 0x0FFCE. -/
theorem test_decode_sample : decode 0b00_1111111111001110#18 = .sample (BitVec.ofInt 16 (-50)) := by decide

/-- V4: `SAMPLE -32768` is 0x08000, and its operand is negative. -/
theorem test_decode_sample_most_negative :
    decode 0x08000#18 = .sample 0x8000#16 ∧ sampleOperand 0x8000#16 = -32768 := by decide

/-- R62: EOS is 0x10000 under the mask 0x30000, its field ignored. -/
theorem test_decode_eos : decode 0b01_0000000000000000#18 = .eos 0#16 ∧ decode 0x1FFFF#18 = .eos 0xFFFF#16 := by decide

/-- CL1, CL4: `CLEAR 8` is 0x20008, `CLEAR 65535` is 0x2FFFF. -/
theorem test_decode_clear : decode 0b10_0000000000001000#18 = .clear 8#16 ∧ decode 0x2FFFF#18 = .clear 0xFFFF#16 := by decide

/-- X1: 0x30000 to 0x3FFFF are reserved. -/
theorem test_decode_reserved : decode 0b11_0000000000000000#18 = .reserved 0#16 ∧ decode 0x3FFFF#18 = .reserved 0xFFFF#16 := by decide

/-- R61: the encoder gives the spec's own words. -/
theorem test_encode : encode (.sample 0xFFCE#16) = 0x0FFCE#18 ∧ encode (.eos 0#16) = 0x10000#18 ∧ encode (.clear 8#16) = 0x20008#18 := by
  decide

/-- A number with a bit above `in_word[17]` is no input word. -/
theorem test_decode_too_wide : decodeTableWord 24 0x40000 = none ∧ decodeTableWord 24 0x2FFFF = some (.clear 0xFFFF#16) := by decide

/-! ### Well-formedness: one ill-formed term for each check -/

theorem test_wf_reserved : Instr.wf (.reserved 0#16) = false ∧ Instr.wf (.sample 0x8000#16) = true := by decide

theorem test_wf_sample_range :
    TraceLine.wf (.sample 32768) = false ∧ TraceLine.wf (.sample (-32769)) = false ∧ TraceLine.wf (.sample (-32768)) = true := by decide

theorem test_wf_clear_range : TraceLine.wf (.clear (some 65536)) = false ∧ TraceLine.wf (.clear (some 65535)) = true := by decide

theorem test_wf_drive_range :
    TraceLine.wf (.bit true (some 0)) = false ∧ TraceLine.wf (.bit true (some 32768)) = false ∧ TraceLine.wf (.bit true none) = true := by
  decide

theorem test_wf_frameBits_length : TraceLine.wf (.frameBits [false, true] none) = false := by decide

theorem test_wf_byte_range : TraceLine.wf (.frame 256 none) = false ∧ TraceLine.wf (.msg [72, 300] none) = false := by decide

theorem test_wf_level_range : TraceLine.wf (.level 40000 3) = false := by decide

/-! ### The trace language (R69, R70) -/

theorem test_trace_sample : assembleText 1 "SAMPLE -50  # a comment".toList = some [0x0FFCE#18] := by decide

theorem test_trace_clear_alone : assembleText 1 "CLEAR".toList = some [0x20000#18] := by decide

theorem test_trace_comment_only : assembleText 1 "# EOS".toList = some [] := by decide

theorem test_trace_unknown : assembleText 1 "STOP".toList = none ∧ assembleText 1 "SAMPLE 32768".toList = none := by decide

/-- R70 with `S = 2` and the default drive: +16384 is 0x04000, -16384 is 0x0C000. -/
theorem test_trace_bit : assembleText 2 "BIT 1".toList = some [0x04000#18, 0x04000#18] ∧ assembleText 1 "BIT 0@100".toList = some [0x0FF9C#18] := by
  decide

/-- R70: an expansion before a CLEAR and one after it, each written for the `cfg_spb` current when it runs. -/
theorem test_trace_program_two_spb :
    assembleProgram [(1, "BIT 1".toList), (1, "CLEAR 2".toList), (2, "BIT 1".toList)] =
      some [0x04000#18, 0x20002#18, 0x04000#18, 0x04000#18] := by decide

/-- P2: the words of `FRAME 0x4E` at one sample per bit. -/
theorem test_trace_frame : assembleText 1 "FRAME 0x4E".toList =
    some [0x0C000#18, 0x0C000#18, 0x04000#18, 0x04000#18, 0x04000#18, 0x0C000#18, 0x0C000#18, 0x04000#18, 0x0C000#18, 0x04000#18] := by
  decide

/-- R69: how output events are written. -/
theorem test_event_text : (OutputEvent.char 0x4E#8).text = "CHAR 0x4E".toList ∧ OutputEvent.errStart.text = "ERR_START".toList := by decide

/-! ### One step -/

/-- A state of the block in the middle of a stream. -/
def midStream (cfg : BitVec 16) (acc : Int) (scnt : BitVec 16) (fbits : FrameWord) (bcnt : BitVec 4) : State :=
  { State.powerOn cfg with acc := BitVec.ofInt 32 acc, scnt := scnt, fbits := fbits, bcnt := bcnt }

/-- The state of the block after a framing error of kind `k` (F12, F13). -/
def errorState (cfg : BitVec 16) (k : FrameErr) : State := { State.powerOn cfg with phase := .err, err := k.errCode, out := [k.event] }

/-- The state an outcome answers. -/
def nextOf : Host.Outcome State Fault Refusal → Option State
  | .next s => some s
  | .fault _ => none
  | .refused _ => none

/-- V7: a window whose sum is exactly 0 gives bit 0. -/
theorem test_sample_tie_gives_zero :
    (nextOf (exec (decode 0x0FFCE#18) (midStream 2#16 50 1#16 0#10 0#4))).map (fun t => (t.acc, t.scnt, t.fbits, t.bcnt)) =
      some (0#32, 0#16, 0#10, 1#4) := by decide

/-- R101's worked example: the tenth bit of the frame of 'N' emits 0x4E. -/
theorem test_sample_emits_char :
    (nextOf (exec (.sample 1#16) (midStream 1#16 0 0#16 0x09C#10 9#4))).map (fun t => (t.out, t.chars, t.bcnt, t.fbits)) =
      some ([.char 0x4E#8], 1#32, 0#4, 0#10) := by decide

/-- EO2: EOS in the middle of a window and a frame. -/
theorem test_eos_discards :
    (nextOf (exec (.eos 0#16) (midStream 2#16 5 1#16 0x001#10 2#4))).map (fun t => (t.out, t.acc, t.fbits, statusView t)) =
      some ([.done], 0#32, 0#10, 0x0001#16) := by decide

/-- EO4: EOS in ERR changes nothing. -/
theorem test_eos_in_err : nextOf (exec (.eos 0#16) (errorState 1#16 .start)) = some (errorState 1#16 .start) := by decide

/-- CL1: CLEAR 8 from ERR. -/
theorem test_clear_from_err :
    (nextOf (exec (decode 0x20008#18) (errorState 1#16 .start))).map (fun t => (t.cfgSpb, statusView t, t.chars, t.out)) =
      some (8#16, 0x0000#16, 0#32, [.errStart]) := by decide

/-- CL2: CLEAR 0 keeps `cfg_spb`. -/
theorem test_clear_keeps : (nextOf (exec (decode 0x20000#18) (State.powerOn 8#16))).map (fun t => t.cfgSpb) = some 8#16 := by decide

/-- X1: a reserved word is refused, with the mark set. -/
theorem test_reserved_refused (s : State) : exec (decode 0x30000#18) s = .refused (.reservedOp (markRefused s)) := rfl

/-- R120: reset wins over a transaction presented at the same time. -/
theorem test_reset_wins :
    step { errorState 1#16 .stop with input := [{ rst := true, inValid := true, inWord := 0x10000#18 }] } =
      .next { State.reset with out := [.errStop] } := rfl

/-- 2.6: STATUS 0x0090 and 0x000A. -/
theorem test_status : statusView (midStream 1#16 0 0#16 0#10 9#4) = 0x0090#16 ∧ statusView (errorState 1#16 .stop) = 0x000A#16 := by decide

/-- RF3, RF4. -/
theorem test_reference : refDecode 2 (List.replicate 20 1) = ([], .start) ∧
    decodeFrames [] [[false, false, true, true, true, false, false, true, false, true],
      [false, true, false, false, false, false, false, false, false, false]] = ([0x4E#8], .stop) := by decide

/-! ### Witnesses: data that meets the hypotheses of each statement -/

/-- R32's conditions on a concrete state, the bits of the frame register checked up to its width. -/
theorem inv_of_bounded (s : State) (h1 : 1 ≤ s.cfgSpb.toNat) (h2 : s.scnt.toNat < s.cfgSpb.toNat)
    (h3 : s.acc.toInt.natAbs ≤ s.scnt.toNat * 32768) (h4 : s.bcnt.toNat ≤ 9)
    (h5 : ∀ k, k < 10 → s.bcnt.toNat ≤ k → s.fbits.getLsbD k = false) (h6 : s.err ≠ .none ↔ s.phase = .err)
    (h7 : s.phase ≠ .run → s.acc = 0#32 ∧ s.scnt = 0#16 ∧ s.fbits = 0#10 ∧ s.bcnt = 0#4) : s.Inv := by
  refine ⟨h1, h2, h3, h4, ?_, h6, h7⟩
  intro k hk
  by_cases h : k < 10
  · exact h5 k h hk
  · exact BitVec.getLsbD_of_ge _ _ (by omega)

/-- V9, V10: a window of three, one sample in. -/
def openWindow : State := midStream 3#16 7 1#16 0#10 0#4

/-- V15: the last sample of the longest window, at its largest sum, with eight bits of a frame collected. -/
def closingWindow : State := midStream 65535#16 2147352578 65534#16 0x09C#10 8#4

/-- The last sample of a frame whose start bit is 0 (R101's example). -/
def lastBitValidStart : State := midStream 1#16 0 0#16 0x09C#10 9#4

/-- The last sample of a frame whose start bit is 1 (F11). -/
def lastBitWrongStart : State := midStream 1#16 0 0#16 0x09D#10 9#4

theorem openWindow_inv : openWindow.Inv :=
  inv_of_bounded _ (by decide) (by decide) (by decide) (by decide) (by decide) (by decide) (by decide)

theorem closingWindow_inv : closingWindow.Inv :=
  inv_of_bounded _ (by decide) (by decide) (by decide) (by decide) (by decide) (by decide) (by decide)

theorem lastBitValidStart_inv : lastBitValidStart.Inv :=
  inv_of_bounded _ (by decide) (by decide) (by decide) (by decide) (by decide) (by decide) (by decide)

theorem lastBitWrongStart_inv : lastBitWrongStart.Inv :=
  inv_of_bounded _ (by decide) (by decide) (by decide) (by decide) (by decide) (by decide) (by decide)

theorem errorState_inv : (errorState 1#16 .start).Inv :=
  inv_of_bounded _ (by decide) (by decide) (by decide) (by decide) (by decide) (by decide) (by decide)

theorem errorState_stop_inv : (errorState 1#16 .stop).Inv :=
  inv_of_bounded _ (by decide) (by decide) (by decide) (by decide) (by decide) (by decide) (by decide)

/-- After the end of a run (EO1). -/
def doneState : State := { State.powerOn 1#16 with phase := .done, out := [.done] }

theorem doneState_inv : doneState.Inv :=
  inv_of_bounded _ (by decide) (by decide) (by decide) (by decide) (by decide) (by decide) (by decide)

theorem witness_PlacedTableWordRunsNext : (State.powerOn 1#16).refused = false ∧ 0x3FFFF % 2 ^ 24 < 2 ^ 18 := by decide

theorem witness_PlacedTableWordRunsNext_too_wide : 2 ^ 18 ≤ 0x40000 % 2 ^ 24 := by decide

theorem witness_TraceLinesAssemble_samples :
    ((-32768 : Int) ≤ -32768 ∧ (-32768 : Int) ≤ 32767) ∧ ((32767 : Int) < 32768) ∧ 65535 ≤ 65535 ∧ 65535 < 65536 := by decide

/-- A host that drives idle ports, then a word. -/
theorem witness_StepRunsPresentedTransaction :
    ({ openWindow with input := [⟨false, false, 5#18⟩, ⟨false, true, 0x00003#18⟩] } : State).refused = false ∧
      (∀ p ∈ [(⟨false, false, 5#18⟩ : InputPins)], p.rst = false ∧ p.inValid = false) ∧
      ({ openWindow with input := [⟨false, false, 5#18⟩, ⟨false, true, 0x00003#18⟩] } : State).input =
        [⟨false, false, 5#18⟩] ++ { rst := false, inValid := true, inWord := 0x00003#18 } :: [] := by decide

theorem witness_ResetStepLoadsResetValues :
    ({ openWindow with input := [⟨true, true, 0x00003#18⟩] } : State).refused = false ∧
      ({ openWindow with input := [⟨true, true, 0x00003#18⟩] } : State).input = { rst := true, inValid := true, inWord := 0x00003#18 } :: [] := by
  decide

theorem witness_IdlePortsAreNoStep :
    ({ openWindow with input := [⟨false, false, 5#18⟩] } : State).refused = false ∧
      (∀ p ∈ ({ openWindow with input := [⟨false, false, 5#18⟩] } : State).input, p.rst = false ∧ p.inValid = false) := by decide

theorem witness_ReservedTransactionIsRefused_marked : (markRefused openWindow).refused = true := by decide

/-- The steps of the witnesses below: a SAMPLE in an open window, and a CLEAR. -/
def sampleComing : State := { openWindow with input := [presentWord 0x0FFFD#18] }

def clearComing : State := { lastBitWrongStart with input := [presentWord 0x20008#18] }

theorem sampleComing_steps : step sampleComing = .next (midStream 3#16 4 2#16 0#10 0#4) := rfl

theorem clearComing_steps : step clearComing = .next (State.powerOn 8#16) := rfl

theorem sampleComing_inv : sampleComing.Inv :=
  inv_of_bounded _ (by decide) (by decide) (by decide) (by decide) (by decide) (by decide) (by decide)

theorem witness_ReservedTransactionIsRefused_step : ∃ s t : State, step s = .next t := ⟨_, _, sampleComing_steps⟩

theorem witness_PresentedTransactionCompletes :
    sampleComing.refused = false ∧ keepsDuty sampleComing.input = true ∧ (∃ p ∈ sampleComing.input, p.isStep = true) :=
  ⟨rfl, by decide, presentWord 0x0FFFD#18, by decide, by decide⟩

theorem witness_LaunchAdmitsExactlyBlockStates : closingWindow.Inv ∧ ¬ (State.powerOn 0#16).Inv :=
  ⟨closingWindow_inv, fun h => absurd h.cfg_positive (by decide)⟩

theorem witness_SampleExtendsOpenWindow :
    openWindow.Inv ∧ openWindow.phase = .run ∧ openWindow.scnt.toNat + 1 < openWindow.cfgSpb.toNat :=
  ⟨openWindow_inv, by decide, by decide⟩

theorem witness_SampleClosingWindowStoresBit :
    closingWindow.Inv ∧ closingWindow.phase = .run ∧ closingWindow.scnt.toNat + 1 = closingWindow.cfgSpb.toNat ∧
      closingWindow.bcnt.toNat < 9 :=
  ⟨closingWindow_inv, by decide, by decide, by decide⟩

/-- The smallest positive sample (V1) as the stop bit. -/
theorem witness_SampleCompletingValidFrameEmitsChar :
    lastBitValidStart.Inv ∧ lastBitValidStart.phase = .run ∧ lastBitValidStart.scnt.toNat + 1 = lastBitValidStart.cfgSpb.toNat ∧
      lastBitValidStart.bcnt.toNat = 9 ∧ lastBitValidStart.fbits.getLsbD 0 = false ∧
      0 < lastBitValidStart.acc.toInt + (1#16 : Field).toInt :=
  ⟨lastBitValidStart_inv, by decide, by decide, by decide, by decide, by decide⟩

theorem witness_SampleCompletingInvalidFrameEntersError_start :
    lastBitWrongStart.Inv ∧ lastBitWrongStart.phase = .run ∧ lastBitWrongStart.scnt.toNat + 1 = lastBitWrongStart.cfgSpb.toNat ∧
      lastBitWrongStart.bcnt.toNat = 9 ∧ lastBitWrongStart.fbits.getLsbD 0 = true :=
  ⟨lastBitWrongStart_inv, by decide, by decide, by decide, by decide⟩

/-- A sum of exactly 0 (V2) as the stop bit. -/
theorem witness_SampleCompletingInvalidFrameEntersError_stop :
    lastBitValidStart.Inv ∧ lastBitValidStart.phase = .run ∧ lastBitValidStart.scnt.toNat + 1 = lastBitValidStart.cfgSpb.toNat ∧
      lastBitValidStart.bcnt.toNat = 9 ∧ lastBitValidStart.fbits.getLsbD 0 = false ∧
      lastBitValidStart.acc.toInt + (0#16 : Field).toInt ≤ 0 :=
  ⟨lastBitValidStart_inv, by decide, by decide, by decide, by decide, by decide⟩

/-- The smallest positive sum (V1) as the stop bit. -/
theorem witness_SampleCompletingInvalidFrameEntersError_valid :
    lastBitValidStart.Inv ∧ lastBitValidStart.phase = .run ∧ lastBitValidStart.scnt.toNat + 1 = lastBitValidStart.cfgSpb.toNat ∧
      lastBitValidStart.bcnt.toNat = 9 ∧ lastBitValidStart.fbits.getLsbD 0 = false ∧
      0 < lastBitValidStart.acc.toInt + (1#16 : Field).toInt :=
  ⟨lastBitValidStart_inv, by decide, by decide, by decide, by decide, by decide⟩

/-- One state for each row of the frame statement: ended, window open, frame open, frame complete. -/
theorem witness_SampleWritesOnlyWhatItsRowNames :
    (errorState 1#16 .stop).phase ≠ .run ∧
      (openWindow.phase = .run ∧ openWindow.scnt.toNat + 1 < openWindow.cfgSpb.toNat) ∧
      (closingWindow.phase = .run ∧ closingWindow.cfgSpb.toNat ≤ closingWindow.scnt.toNat + 1 ∧ closingWindow.bcnt.toNat < 9) ∧
      (lastBitWrongStart.phase = .run ∧ lastBitWrongStart.cfgSpb.toNat ≤ lastBitWrongStart.scnt.toNat + 1 ∧
        9 ≤ lastBitWrongStart.bcnt.toNat) := by decide

theorem witness_AccumulatorNeverOverflows :
    closingWindow.Inv ∧ closingWindow.AccRange ∧ (∃ S, StreamStart S (State.powerOn S)) ∧
      ∃ t, sampleComing.Inv ∧ sampleComing.AccRange ∧ step sampleComing = .next t :=
  ⟨closingWindow_inv, by unfold State.AccRange; decide, ⟨1#16, .powerOn []⟩,
    _, sampleComing_inv, by unfold State.AccRange; decide, sampleComing_steps⟩

theorem witness_EosEndsTheStream : openWindow.phase = .run ∧ (errorState 1#16 .start).phase ≠ .run := by decide

theorem witness_ClearStartsNewStream : (0xFFFF#16 : Field) ≠ 0#16 := by decide

/-- The window's last sample in an open frame; the frame's last sample with each start bit and each sign of the sum; DONE and ERR. -/
theorem witness_PhaseMovesOnlyOnItsTransitions :
    (closingWindow.phase = .run ∧ closingWindow.bcnt.toNat < 9) ∧
      (lastBitWrongStart.phase = .run ∧ lastBitWrongStart.cfgSpb.toNat ≤ lastBitWrongStart.scnt.toNat + 1 ∧
        9 ≤ lastBitWrongStart.bcnt.toNat ∧ lastBitWrongStart.fbits.getLsbD 0 = true) ∧
      (lastBitValidStart.phase = .run ∧ lastBitValidStart.cfgSpb.toNat ≤ lastBitValidStart.scnt.toNat + 1 ∧
        9 ≤ lastBitValidStart.bcnt.toNat ∧ lastBitValidStart.fbits.getLsbD 0 = false ∧
        lastBitValidStart.acc.toInt + (0#16 : Field).toInt ≤ 0 ∧ 0 < lastBitValidStart.acc.toInt + (1#16 : Field).toInt) ∧
      (errorState 1#16 .start).phase = .err ∧ doneState.phase = .done := by decide

/-- A SAMPLE and an EOS after the end of a run: a step that starts no run, from an ended run. -/
theorem witness_OnlyClearAndResetReconfigureOrRestart :
    ∃ t, step { doneState with input := [presentWord 0x00005#18] } = .next t ∧
      startsRun { doneState with input := [presentWord 0x00005#18] } = false ∧
      ({ doneState with input := [presentWord 0x00005#18] } : State).phase ≠ .run :=
  ⟨doneState, rfl, rfl, by decide⟩

theorem witness_NothingFollowsTheEndOfARun :
    (errorState 1#16 .stop).refused = false ∧ (errorState 1#16 .stop).phase ≠ .run ∧
      (∀ i ∈ [Instr.sample 5#16, Instr.eos 0#16], (∃ f, i = .sample f) ∨ (∃ f, i = .eos f)) :=
  ⟨rfl, by decide, by intro i hi; rcases List.mem_cons.1 hi with rfl | hi
                      · exact .inl ⟨_, rfl⟩
                      · rcases List.mem_cons.1 hi with rfl | hi
                        · exact .inr ⟨_, rfl⟩
                        · cases hi⟩

theorem witness_AtMostOneEventAStep :
    ∃ t, step { lastBitValidStart with input := [presentWord 0x00001#18] } = .next t ∧ t.out = [.char 0x4E#8] :=
  ⟨_, rfl, by decide⟩

theorem witness_ViewsShowTheRegisters :
    (lastBitValidStart.Inv ∧ lastBitValidStart.phase = .run ∧ lastBitValidStart.bcnt = 9#4) ∧
      (doneState.Inv ∧ doneState.phase = .done) ∧ ((errorState 1#16 .start).Inv ∧ (errorState 1#16 .start).phase = .err) ∧
      ((errorState 1#16 .stop).Inv ∧ (errorState 1#16 .stop).phase = .err) :=
  ⟨⟨lastBitValidStart_inv, by decide, by decide⟩, ⟨doneState_inv, by decide⟩, ⟨errorState_inv, by decide⟩, ⟨errorState_stop_inv, by decide⟩⟩

/-- Two states that differ in what they have emitted. -/
theorem witness_RunDependsOnlyOnRegistersAndInput :
    ∃ t, SameRegisters sampleComing { sampleComing with out := [.done] } ∧
      sampleComing.refused = ({ sampleComing with out := [.done] } : State).refused ∧
      sampleComing.input = ({ sampleComing with out := [.done] } : State).input ∧ core.run 1 sampleComing = .next t :=
  ⟨_, ⟨rfl, rfl, rfl, rfl, rfl, rfl, rfl, rfl⟩, rfl, rfl, rfl⟩

theorem witness_RunAfterClearForgetsThePast :
    ∃ t, (8#16 : Field) ≠ 0#16 ∧ openWindow.refused = false ∧ doneState.refused = false ∧
      core.run ([Instr.eos 0#16].length + 1) (presentAll (.clear 8#16 :: [.eos 0#16]) openWindow) = .next t :=
  ⟨_, by decide, rfl, rfl, rfl⟩

theorem witness_InvariantKeptByEveryStep : ∃ t, sampleComing.Inv ∧ step sampleComing = .next t := ⟨_, sampleComing_inv, sampleComing_steps⟩

theorem witness_InvariantHoldsAtReset : (1#16 : BitVec 16) ≠ 0#16 ∧ (0xFFFF#16 : BitVec 16) ≠ 0#16 := by decide

theorem witness_ReachableStatesSatisfyInvariant :
    ∃ t, (1#16 : BitVec 16) ≠ 0#16 ∧ core.run 1 { State.powerOn 1#16 with input := [presentWord 0x00005#18] } = .next t :=
  ⟨_, by decide, rfl⟩

/-- A run in progress, a step that goes on with it, and a step that starts a new one. -/
theorem witness_ObservationShapeKeptByEveryStep :
    (∃ t, sampleComing.Inv ∧ RunShape [] sampleComing ∧ step sampleComing = .next t ∧ startsRun sampleComing = false) ∧
      (∃ t, clearComing.Inv ∧ RunShape [] clearComing ∧ step clearComing = .next t ∧ startsRun clearComing = true) :=
  ⟨⟨_, sampleComing_inv, ⟨[], by decide, rfl⟩, sampleComing_steps, rfl⟩,
    ⟨_, inv_of_bounded _ (by decide) (by decide) (by decide) (by decide) (by decide) (by decide) (by decide), ⟨[], by decide, rfl⟩,
      clearComing_steps, rfl⟩⟩

/-- Each way to start a stream. -/
theorem witness_ObservationShapeHoldsAtStart :
    StreamStart 1#16 (State.powerOn 1#16) ∧ StreamStart Config.spbReset (powerOnReset doneState) ∧
      StreamStart 8#16 (newStream 8#16 doneState) ∧ StreamStart 1#16 (newStream 1#16 doneState) :=
  ⟨.powerOn [], .resetStep doneState rfl rfl, .clearLoad doneState _ rfl (by decide) rfl, .clearKeep doneState _ rfl rfl rfl⟩

theorem witness_SumDecisionEqualsMeanDecision : 1 ≤ 3 ∧ ([1, 1, -32768] : List Int).length = 3 := by decide

theorem witness_OneSidedStreamsFail :
    (1 ≤ 1 ∧ (∀ x ∈ List.replicate 10 (-1000 : Int), x < 0) ∧ 10 * 1 ≤ (List.replicate 10 (-1000 : Int)).length) ∧
      (∀ x ∈ List.replicate 10 (1000 : Int), 0 < x) := by decide

theorem witness_SyntheticFrameRoundTrip : (State.powerOn 3#16).fbits = 0#10 ∧ (State.powerOn 3#16).bcnt = 0#4 := by decide

/-- C1: a valid frame, then an invalid one, START and STOP; and two valid ones. -/
theorem witness_FramesBeforeTheFirstInvalidOne :
    framesOf (frameBitsOf 0x4E#8 ++ List.replicate 10 false) = [frameBitsOf 0x4E#8] ++ List.replicate 10 false :: [] ∧
      framesOf (frameBitsOf 0x4E#8 ++ List.replicate 10 true) = [frameBitsOf 0x4E#8] ++ List.replicate 10 true :: [] ∧
      (∀ G ∈ [frameBitsOf 0x4E#8], G.getD 0 false = false ∧ G.getD 9 false = true) ∧
      (∀ F ∈ framesOf (frameBitsOf 0x4E#8 ++ frameBitsOf 0xFF#8), F.getD 0 false = false ∧ F.getD 9 false = true) := by decide

theorem witness_BlockMatchesReferenceDecoder : (0xFFFF#16 : BitVec 16) ≠ 0#16 ∧ StreamStart 0xFFFF#16 (State.powerOn 0xFFFF#16) :=
  ⟨by decide, .powerOn []⟩

/-- RF1, F13 and F12 at one sample per bit: each outcome of the reference decoder, and a run from a start of a stream. -/
theorem witness_RunResultIsTheDecodedMessage :
    (∃ xs, refDecode (1#16 : BitVec 16).toNat (sampleValues xs) = ([], .ok)) ∧
      (∃ xs, refDecode (1#16 : BitVec 16).toNat (sampleValues xs) = ([], .start)) ∧
      (∃ xs, refDecode (1#16 : BitVec 16).toNat (sampleValues xs) = ([], .stop)) ∧
      (∃ t, StreamStart 1#16 (State.powerOn 1#16) ∧ core.run (([] : List Field).length + 1)
        (presentAll (sampleInstrs [] ++ [.eos 0#16]) (State.powerOn 1#16)) = .next t) :=
  ⟨⟨[], by decide⟩, ⟨List.replicate 10 1#16, by decide⟩, ⟨List.replicate 10 0#16, by decide⟩, _, .powerOn [], rfl⟩

theorem witness_RegistersHoldTheStreamPosition :
    ∃ t, StreamStart 2#16 (State.powerOn 2#16) ∧ (refDecode (2#16 : BitVec 16).toNat (sampleValues [5#16])).2 = .ok ∧
      core.run ([5#16] : List Field).length (presentAll (sampleInstrs [5#16]) (State.powerOn 2#16)) = .next t :=
  ⟨_, .powerOn [], by decide, rfl⟩

theorem witness_MessageRoundTrip : (1#16 : BitVec 16) ≠ 0#16 ∧ StreamStart 1#16 (State.powerOn 1#16) ∧ 1 ≤ 1 ∧ 32767 ≤ 32767 :=
  ⟨by decide, .powerOn [], by decide, by decide⟩

end Sys2Proof.Tests
end

/-! The scope family (spec 00_scope.md R10): the shape of a run's observation, kept by every step and holding at every start of a
stream. -/

namespace Sys2Proof.Machine

/-! ### Starting a new stream -/

/-- A CLEAR whose operand is not 0 loads it (R122). -/
theorem clearSpb_of_ne_zero (fld : Field) (s : State) (h : fld ≠ 0#16) : clearSpb fld s = fld := by
  simp [clearSpb, h]

/-- A CLEAR whose operand is 0 keeps `cfg_spb` (R122). -/
@[simp] theorem clearSpb_zero (s : State) : clearSpb 0#16 s = s.cfgSpb := by
  simp [clearSpb]

/-- Starting a stream of at least one sample a bit meets R32, from any state. -/
theorem newStream_inv (spb : BitVec 16) (s : State) (h : 1 ≤ spb.toNat) : (newStream spb s).Inv where
  cfg_positive := h
  scnt_below := h
  acc_bound := by simp
  bcnt_le_nine := by simp
  fbits_high_zero := by simp
  err_iff_phase := by simp
  ended_empty := by simp

/-- However a stream at `S` begins, starting one at `S` there once more changes nothing (R111, R162). -/
theorem StreamStart.newStream_eq_self {S : BitVec 16} {s : State} (h : StreamStart S s) : newStream S s = s := by
  cases h with
  | powerOn ps => rfl
  | resetStep s hspb _ => subst hspb; rfl
  | clearLoad s _ _ hS hexec =>
    cases hexec
    rw [clearSpb_of_ne_zero S s hS]
    rfl
  | clearKeep s _ _ hS hexec =>
    cases hexec
    rw [clearSpb_zero, hS]
    rfl

/-! ### The shape of an observation, phase by phase -/

/-- In RUN: no error, and CHARs only. -/
theorem runShape_run_iff {base : List OutputEvent} {s : State} (hp : s.phase = .run) :
    RunShape base s ↔ s.err = .none ∧
      ∃ msg : List Byte, s.chars = BitVec.ofNat 32 msg.length ∧ s.out = base ++ msg.map OutputEvent.char := by
  unfold RunShape
  rw [hp]
  cases s.err <;> simp

/-- In DONE: no error, and CHARs ended by one DONE. -/
theorem runShape_done_iff {base : List OutputEvent} {s : State} (hp : s.phase = .done) :
    RunShape base s ↔ s.err = .none ∧
      ∃ msg : List Byte, s.chars = BitVec.ofNat 32 msg.length ∧ s.out = base ++ msg.map OutputEvent.char ++ [.done] := by
  unfold RunShape
  rw [hp]
  cases s.err <;> simp

/-- In ERR: CHARs ended by the event of the exception that `err` records. -/
theorem runShape_err_iff {base : List OutputEvent} {s : State} (hp : s.phase = .err) (k : FrameErr) (he : s.err = k.errCode) :
    RunShape base s ↔
      ∃ msg : List Byte, s.chars = BitVec.ofNat 32 msg.length ∧ s.out = base ++ msg.map OutputEvent.char ++ [k.event] := by
  unfold RunShape
  rw [hp, he]
  cases k <;> rfl

/-- At the start of a stream the run's observation is empty. -/
theorem newStream_runShape (spb : BitVec 16) (s : State) : RunShape s.out (newStream spb s) :=
  (runShape_run_iff (newStream_phase spb s)).2 ⟨rfl, [], rfl, by simp⟩

/-- SAMPLE keeps the shape: it is ignored, writes no event, ends the run with the error `err` records, or adds one CHAR and counts it. -/
theorem sampleState_keeps_runShape {base : List OutputEvent} {s : State} (fld : Field) (h : RunShape base s) :
    RunShape base (sampleState fld s) := by
  rcases sampleState_cases fld s with ⟨-, e⟩ | ⟨-, -, e⟩ | ⟨-, -, -, e⟩ | ⟨hp, -, -, -, e⟩ | ⟨hp, -, -, -, -, e⟩ |
    ⟨hp, -, -, -, -, e⟩ <;> rw [e]
  · exact h
  · exact h
  · exact h
  all_goals obtain ⟨herr, msg, hchars, hout⟩ := (runShape_run_iff hp).1 h
  · exact (runShape_err_iff rfl .start rfl).2 ⟨msg, hchars, congrArg (· ++ [.errStart]) hout⟩
  · exact (runShape_err_iff rfl .stop rfl).2 ⟨msg, hchars, congrArg (· ++ [.errStop]) hout⟩
  · refine (runShape_run_iff (by exact hp)).2 ⟨herr, msg ++ [frameByte (frameWith s.fbits 9 true)], ?_, ?_⟩
    · simp [hchars, BitVec.ofNat_add]
    · simp [hout]

/-- EOS keeps the shape: it is ignored, or ends the run with one DONE. -/
theorem eosState_keeps_runShape {base : List OutputEvent} {s : State} (h : RunShape base s) : RunShape base (eosState s) := by
  by_cases hp : s.phase = .run
  · rw [eosState_run s hp]
    obtain ⟨herr, msg, hchars, hout⟩ := (runShape_run_iff hp).1 h
    exact (runShape_done_iff rfl).2 ⟨herr, msg, hchars, congrArg (· ++ [.done]) hout⟩
  · rw [eosState_ended s hp]
    exact h

/-! ### A step that starts a run, and one that does not -/

/-- A step that starts a run starts a new stream, in the state whose presentation has been taken. -/
theorem step_of_startsRun {s t : State} (hs : startsRun s = true) (h : step s = .next t) :
    ∃ (spb : BitVec 16) (rest : List InputPins), t = newStream spb { s with input := rest } := by
  obtain ⟨-, rest, ⟨-, ht⟩ | ⟨f, hf, -⟩ | ⟨f, hf, -⟩ | ⟨f, -, ht⟩⟩ := step_cases s t h
  · exact ⟨Config.spbReset, rest, ht⟩
  · simp [startsRun, hf] at hs
  · simp [startsRun, hf] at hs
  · exact ⟨_, rest, ht⟩

/-- A step that goes on with a run is a SAMPLE or an EOS, in the state whose presentation has been taken. -/
theorem step_of_not_startsRun {s t : State} (hs : startsRun s = false) (h : step s = .next t) :
    ∃ rest : List InputPins,
      (∃ f, t = sampleState f { s with input := rest }) ∨ t = eosState { s with input := rest } := by
  obtain ⟨-, rest, ⟨hf, -⟩ | ⟨f, -, ht⟩ | ⟨f, -, ht⟩ | ⟨f, hf, -⟩⟩ := step_cases s t h
  · simp [startsRun, hf] at hs
  · exact ⟨rest, .inl ⟨f, ht⟩⟩
  · exact ⟨rest, .inr ht⟩
  · simp [startsRun, hf] at hs

/-! ### The obligations -/

/-- Settles O31: a step that goes on with the run is a SAMPLE or an EOS, each of which keeps the shape; one that starts a run starts a
new stream, which has it for the output so far. R32 is not needed: the shape itself fixes `err` in each phase. -/
theorem observationShapeKeptByEveryStep : Obligations.ObservationShapeKeptByEveryStep := by
  intro base s t _ hshape hstep
  constructor
  · intro hs
    have htaken (rest : List InputPins) : RunShape base { s with input := rest } := hshape
    obtain ⟨rest, ⟨f, rfl⟩ | rfl⟩ := step_of_not_startsRun hs hstep
    · exact sampleState_keeps_runShape f (htaken rest)
    · exact eosState_keeps_runShape (htaken rest)
  · intro hs
    obtain ⟨spb, rest, rfl⟩ := step_of_startsRun hs hstep
    exact ⟨newStream_runShape spb { s with input := rest }, rfl⟩

/-- Settles O32: the start of a stream is the state a new stream at `S` leaves, whichever way it began. -/
theorem observationShapeHoldsAtStart : Obligations.ObservationShapeHoldsAtStart := by
  intro S s hS hstart
  have hpos : 1 ≤ S.toNat := by bv_omega
  rw [← hstart.newStream_eq_self]
  exact ⟨newStream_runShape S s, newStream_inv S s hpos, rfl⟩

end Sys2Proof.Machine

/-! The state family (spec 10_state.md): the write table of SAMPLE (R30), the conditions of R32, and the exact range of the sum
(R23). -/

namespace Sys2Proof.Machine

/-! ### SAMPLE, row by row of the write table -/

/-- A sample that leaves the window open (R84). -/
theorem sampleState_of_window_open {s : State} (f : Field) (hp : s.phase = .run) (hn : s.scnt.toNat + 1 < s.cfgSpb.toNat) :
    sampleState f s = { s with acc := BitVec.ofInt 32 (s.acc.toInt + f.toInt), scnt := BitVec.ofNat 16 (s.scnt.toNat + 1) } := by
  rw [sampleState_run f s hp]
  rcases acceptSample_cases f.toInt s with ⟨-, e⟩ | ⟨h, -⟩
  · exact e
  · omega

/-- A sample that closes the window passes the window's bit to the frame path (R84). -/
theorem sampleState_of_window_closed {s : State} (f : Field) (hp : s.phase = .run) (hn : s.cfgSpb.toNat ≤ s.scnt.toNat + 1) :
    sampleState f s = pushBit (nrzBit (s.acc.toInt + f.toInt)) { s with acc := 0#32, scnt := 0#16 } := by
  rw [sampleState_run f s hp]
  rcases acceptSample_cases f.toInt s with ⟨h, -⟩ | ⟨-, e⟩
  · omega
  · exact e

/-- A sample that closes the window inside a frame stores the window's bit at the frame's next position (R84, R101). -/
theorem sampleState_of_frame_open {s : State} (f : Field) (hp : s.phase = .run) (hn : s.cfgSpb.toNat ≤ s.scnt.toNat + 1)
    (hb : s.bcnt.toNat < 9) :
    sampleState f s =
      { s with acc := 0#32, scnt := 0#16, fbits := frameWith s.fbits s.bcnt.toNat (nrzBit (s.acc.toInt + f.toInt)),
               bcnt := s.bcnt + 1#4 } :=
  (sampleState_of_window_closed f hp hn).trans (if_pos hb)

/-- A sample that closes the window of a tenth bit completes the frame (R84, R101). -/
theorem sampleState_of_frame_full {s : State} (f : Field) (hp : s.phase = .run) (hn : s.cfgSpb.toNat ≤ s.scnt.toNat + 1)
    (hb : 9 ≤ s.bcnt.toNat) :
    sampleState f s =
      completeFrame (frameWith s.fbits 9 (nrzBit (s.acc.toInt + f.toInt))) { s with acc := 0#32, scnt := 0#16 } :=
  (sampleState_of_window_closed f hp hn).trans (if_neg (Nat.not_lt.2 hb))

/-! ### The conditions of R32 -/

/-- R32 says nothing of what is still to be presented. -/
theorem State.Inv.with_input {s : State} (h : s.Inv) (ps : List InputPins) : ({ s with input := ps } : State).Inv where
  cfg_positive := h.cfg_positive
  scnt_below := h.scnt_below
  acc_bound := h.acc_bound
  bcnt_le_nine := h.bcnt_le_nine
  fbits_high_zero := h.fbits_high_zero
  err_iff_phase := h.err_iff_phase
  ended_empty := h.ended_empty

/-- With the window and the frame empty, R32 asks only for a positive `cfg_spb` and for `err` to agree with the phase. -/
theorem inv_of_empty {s : State} (hcfg : 1 ≤ s.cfgSpb.toNat) (hacc : s.acc = 0#32) (hscnt : s.scnt = 0#16)
    (hfbits : s.fbits = 0#10) (hbcnt : s.bcnt = 0#4) (herr : s.err ≠ .none ↔ s.phase = .err) : s.Inv where
  cfg_positive := hcfg
  scnt_below := by rw [hscnt]; exact hcfg
  acc_bound := by simp [hacc]
  bcnt_le_nine := by simp [hbcnt]
  fbits_high_zero := by simp [hfbits]
  err_iff_phase := herr
  ended_empty := fun _ => ⟨hacc, hscnt, hfbits, hbcnt⟩

/-- In RUN there is no error. -/
theorem State.Inv.err_of_run {s : State} (h : s.Inv) (hp : s.phase = .run) : s.err = .none := by
  by_contra he
  simp [h.err_iff_phase.1 he] at hp

/-- The register written with a SAMPLE's new sum reads as exactly that sum: at most 65535 samples of magnitude 32768 fit it (R23). -/
theorem State.Inv.toInt_new_sum {s : State} (h : s.Inv) (f : Field) :
    (BitVec.ofInt 32 (s.acc.toInt + f.toInt)).toInt = s.acc.toInt + f.toInt := by
  have hacc := h.acc_bound
  have hscnt := h.scnt_below
  have hcfg := s.cfgSpb.isLt
  have hf := sample_bounds f
  rw [BitVec.toInt_ofInt]
  exact Int.bmod_eq_of_le (by omega) (by omega)

/-- The register written with the count of an open window reads as exactly that count (R24). -/
theorem toNat_new_count {s : State} (hn : s.scnt.toNat + 1 < s.cfgSpb.toNat) :
    (BitVec.ofNat 16 (s.scnt.toNat + 1)).toNat = s.scnt.toNat + 1 :=
  Nat.mod_eq_of_lt (hn.trans s.cfgSpb.isLt)

/-- SAMPLE keeps R32. -/
theorem sampleState_inv {s : State} (h : s.Inv) (f : Field) : (sampleState f s).Inv := by
  rcases sampleState_cases f s with ⟨-, e⟩ | ⟨hp, hn, e⟩ | ⟨hp, -, hb, e⟩ | ⟨-, -, -, -, e⟩ | ⟨-, -, -, -, -, e⟩ |
    ⟨-, -, -, -, -, e⟩ <;> rw [e]
  · exact h
  · have hcount := toNat_new_count hn
    exact { h with
      scnt_below := hcount.trans_lt hn
      acc_bound := by
        have hacc := h.acc_bound
        have hf := sample_bounds f
        simp only [h.toInt_new_sum f, hcount]
        omega
      ended_empty := fun hne => absurd hp hne }
  · have hbcnt : (s.bcnt + 1#4).toNat = s.bcnt.toNat + 1 := by bv_omega
    exact { h with
      scnt_below := h.cfg_positive
      acc_bound := by simp
      bcnt_le_nine := hbcnt.trans_le hb
      fbits_high_zero := by
        intro k hk
        simp only [hbcnt] at hk
        rw [getLsbD_frameWith _ _ _ (by omega), if_neg (by omega)]
        exact h.fbits_high_zero k (by omega)
      ended_empty := fun hne => absurd hp hne }
  · exact inv_of_empty h.cfg_positive rfl rfl rfl rfl (by simp)
  · exact inv_of_empty h.cfg_positive rfl rfl rfl rfl (by simp)
  · exact inv_of_empty h.cfg_positive rfl rfl rfl rfl h.err_iff_phase

/-- EOS keeps R32. -/
theorem eosState_inv {s : State} (h : s.Inv) : (eosState s).Inv := by
  by_cases hp : s.phase = .run
  · rw [eosState_run s hp]
    exact inv_of_empty h.cfg_positive rfl rfl rfl rfl (by simp [h.err_of_run hp])
  · rw [eosState_ended s hp]
    exact h

/-- The samplesPerBit in force after a CLEAR is positive where the one before it was: an operand of 0 is not loaded (R122). -/
theorem clearSpb_pos {s : State} (f : Field) (h : 1 ≤ s.cfgSpb.toNat) : 1 ≤ (clearSpb f s).toNat := by
  by_cases hf : f = 0#16
  · rwa [hf, clearSpb_zero]
  · rw [clearSpb_of_ne_zero f s hf]
    bv_omega

/-- The state after power-on reset meets R32 for every legal `SPB_RESET`: it begins a new stream. -/
theorem powerOn_inv {S : BitVec 16} (h : 1 ≤ S.toNat) : (State.powerOn S).Inv := newStream_inv S (State.powerOn S) h

/-- A launch asks for exactly R32; the bits of the frame register are checked up to its width, above which there is none. -/
theorem launchable_iff_inv (s : State) : s.launchable = true ↔ s.Inv := by
  simp only [State.launchable, Bool.and_eq_true, decide_eq_true_eq, List.all_eq_true, List.mem_range, Bool.or_eq_true,
    Bool.not_eq_true', beq_iff_eq, decide_eq_decide, and_assoc]
  constructor
  · rintro ⟨hcfg, hscnt, hacc, hbcnt, hfbits, herr, hempty⟩
    refine ⟨hcfg, hscnt, hacc, hbcnt, fun k hk => ?_, herr, hempty.resolve_left⟩
    rcases Nat.lt_or_ge k 10 with hk10 | hk10
    · exact (hfbits k hk10).resolve_left (by omega)
    · exact BitVec.getLsbD_of_ge _ _ hk10
  · intro h
    refine ⟨h.cfg_positive, h.scnt_below, h.acc_bound, h.bcnt_le_nine, fun k _ => ?_, h.err_iff_phase, ?_⟩
    · exact (Nat.lt_or_ge k s.bcnt.toNat).imp_right (h.fbits_high_zero k)
    · exact or_iff_not_imp_left.2 h.ended_empty

/-! ### What every step keeps, every run keeps -/

/-- Every step keeps R32. -/
theorem step_keeps_inv {s t : State} (h : s.Inv) (hstep : step s = .next t) : t.Inv := by
  obtain ⟨-, rest, ⟨-, rfl⟩ | ⟨f, -, rfl⟩ | ⟨f, -, rfl⟩ | ⟨f, -, rfl⟩⟩ := step_cases s t hstep
  · exact newStream_inv _ _ spbReset_pos
  · exact sampleState_inv (h.with_input rest) f
  · exact eosState_inv (h.with_input rest)
  · exact newStream_inv _ _ (clearSpb_pos f h.cfg_positive)

/-- No step that answers a next state sets the `refused` mark (R65). -/
theorem step_next_refused {s t : State} (hstep : step s = .next t) : t.refused = false := by
  obtain ⟨hr, rest, ⟨-, rfl⟩ | ⟨f, -, rfl⟩ | ⟨f, -, rfl⟩ | ⟨f, -, rfl⟩⟩ := step_cases s t hstep
  · exact hr
  · obtain ⟨-, hmark, -⟩ := sampleState_frame f { s with input := rest }
    exact hmark.trans hr
  · obtain ⟨-, -, -, hmark, -⟩ := eosState_frame { s with input := rest }
    exact hmark.trans hr
  · exact hr

/-- What every step keeps, every run keeps. -/
theorem run_keeps {P : State → Prop} (hP : ∀ s t, P s → step s = .next t → P t) (n : Nat) {s t : State} (hs : P s)
    (hrun : core.run n s = .next t) : P t := by
  induction n generalizing s with
  | zero =>
    rw [run_zero] at hrun
    cases hrun
    exact hs
  | succ n ih =>
    obtain ⟨u, hu, hrest⟩ := run_succ_next n s t hrun
    exact ih (hP s u hs hu) hrest

/-! ### The exact range of the sum (R23) -/

/-- An empty window has the empty sum. -/
theorem accRange_of_empty {s : State} (hacc : s.acc = 0#32) (hscnt : s.scnt = 0#16) : s.AccRange := by
  simp [State.AccRange, hacc, hscnt]

/-- SAMPLE keeps the range: the window and its sum grow by one sample, or the window is emptied. -/
theorem sampleState_accRange {s : State} (h : s.Inv) (hr : s.AccRange) (f : Field) : (sampleState f s).AccRange := by
  rcases sampleState_cases f s with ⟨-, e⟩ | ⟨-, hn, e⟩ | ⟨-, -, -, e⟩ | ⟨-, -, -, -, e⟩ | ⟨-, -, -, -, -, e⟩ |
    ⟨-, -, -, -, -, e⟩ <;> rw [e]
  · exact hr
  · obtain ⟨hlo, hhi⟩ := hr
    have hf := sample_bounds f
    simp only [State.AccRange, h.toInt_new_sum f, toNat_new_count hn]
    omega
  all_goals exact accRange_of_empty rfl rfl

/-- EOS keeps the range. -/
theorem eosState_accRange {s : State} (hr : s.AccRange) : (eosState s).AccRange := by
  by_cases hp : s.phase = .run
  · rw [eosState_run s hp]
    exact accRange_of_empty rfl rfl
  · rw [eosState_ended s hp]
    exact hr

/-- Every step from a state of the block keeps the range. -/
theorem step_keeps_accRange {s t : State} (h : s.Inv) (hr : s.AccRange) (hstep : step s = .next t) : t.AccRange := by
  obtain ⟨-, rest, ⟨-, rfl⟩ | ⟨f, -, rfl⟩ | ⟨f, -, rfl⟩ | ⟨f, -, rfl⟩⟩ := step_cases s t hstep
  · exact accRange_of_empty rfl rfl
  · exact sampleState_accRange (h.with_input rest) hr f
  · exact eosState_accRange (s := { s with input := rest }) hr
  · exact accRange_of_empty rfl rfl

/-! ### The obligations about the conditions of R32, the sum and the write table -/

/-- Settles O28: SAMPLE and EOS keep R32, and the reset step and CLEAR start a stream of at least one sample a bit. -/
theorem invariantKeptByEveryStep : Obligations.InvariantKeptByEveryStep :=
  fun _ _ h hstep => step_keeps_inv h hstep

/-- Settles O29: both states begin a new stream at a positive samplesPerBit. -/
theorem invariantHoldsAtReset : Obligations.InvariantHoldsAtReset :=
  ⟨powerOn_inv spbReset_pos, fun _ hS => powerOn_inv (by bv_omega)⟩

/-- Settles O30, by induction on the number of steps: R32 and the absence of the mark hold at power-on and every step keeps them. -/
theorem reachableStatesSatisfyInvariant : Obligations.ReachableStatesSatisfyInvariant := by
  intro S ps n t hS hrun
  have hstart : ({ State.powerOn S with input := ps } : State).Inv := (powerOn_inv (by bv_omega)).with_input ps
  exact run_keeps (P := fun s => s.Inv ∧ s.refused = false)
    (fun _ _ h hstep => ⟨step_keeps_inv h.1 hstep, step_next_refused hstep⟩) n ⟨hstart, rfl⟩ hrun

/-- Settles O12: the launch's check is R32. -/
theorem launchAdmitsExactlyBlockStates : Obligations.LaunchAdmitsExactlyBlockStates := fun s =>
  ⟨fun h => if_pos ((launchable_iff_inv s).2 h), fun h => if_neg (mt (launchable_iff_inv s).1 h)⟩

/-- Settles O17: the frame of SAMPLE, then one row of the write table after the other. -/
theorem sampleWritesOnlyWhatItsRowNames : Obligations.SampleWritesOnlyWhatItsRowNames := by
  intro s f
  obtain ⟨hcfg, hmark, hinput, -⟩ := sampleState_frame f s
  refine ⟨sampleState f s, rfl, hcfg, hmark, hinput, sampleState_ended f s, fun hp hn => ?_, fun hp hn hb => ?_,
    fun hp hn hb => ?_⟩
  · rw [sampleState_of_window_open f hp hn]
  · rw [sampleState_of_frame_open f hp hn hb]
  · rw [sampleState_of_frame_full f hp hn hb]
    rcases completeFrame_cases (frameWith s.fbits 9 (nrzBit (s.acc.toInt + f.toInt)))
        { s with acc := 0#32, scnt := 0#16 } with ⟨-, e⟩ | ⟨-, -, e⟩ | ⟨-, -, e⟩ <;> rw [e]
    · exact ⟨rfl, by simp, by simp⟩
    · exact ⟨rfl, by simp, by simp⟩
    · exact ⟨rfl, by simp, fun hne => absurd hp hne⟩

/-- Settles O18: every stream starts with an empty window, SAMPLE adds one sample to both the window and its bounds, and the bounds at
65535 samples fit the register. -/
theorem accumulatorNeverOverflows : Obligations.AccumulatorNeverOverflows := by
  refine ⟨fun S s hstart => ?_, fun s t h hr hstep => step_keeps_accRange h hr hstep, fun s f h hr => ?_⟩
  · rw [← hstart.newStream_eq_self]
    exact accRange_of_empty rfl rfl
  · obtain ⟨hlo, hhi⟩ := hr
    have hscnt := h.scnt_below
    have hcfg := s.cfgSpb.isLt
    have hf := sample_bounds f
    exact ⟨by omega, by omega, h.toInt_new_sum f⟩

/-- Settles O22: any other step is a SAMPLE or an EOS; neither writes `cfg_spb`, and both are ignored outside RUN. -/
theorem onlyClearAndResetReconfigureOrRestart : Obligations.OnlyClearAndResetReconfigureOrRestart := by
  intro s t hstep hs
  obtain ⟨rest, ⟨f, rfl⟩ | rfl⟩ := step_of_not_startsRun hs hstep
  · obtain ⟨hcfg, -⟩ := sampleState_frame f { s with input := rest }
    refine ⟨hcfg, fun hp => ?_⟩
    rw [sampleState_ended f { s with input := rest } hp]
  · obtain ⟨hcfg, -⟩ := eosState_frame { s with input := rest }
    refine ⟨hcfg, fun hp => ?_⟩
    rw [eosState_ended { s with input := rest } hp]

end Sys2Proof.Machine

/-! The position in the stream (spec 10_state.md R29, 40_sample_path.md R86): how windows and frames grow by one element, a run of
SAMPLE steps as a fold over the samples, and what the registers hold on the way. -/

namespace Sys2Proof.Machine

/-! ### Complete chunks of a growing list -/

/-- The complete consecutive chunks of `n` elements of a list: windows (R81) and frames (R106) are both cut so. -/
def chunks {α : Type} (n : Nat) (l : List α) : List (List α) :=
  (List.range (l.length / n)).map (fun i => (l.drop (n * i)).take n)

theorem windowsOf_eq_chunks (S : Nat) (xs : List Int) : windowsOf S xs = chunks S xs := by
  simp only [windowsOf, chunks, Nat.mul_comm]

theorem framesOf_eq_chunks (bits : List Bool) : framesOf bits = chunks 10 bits := rfl

/-- An element that leaves the last chunk incomplete moves the position inside it. -/
theorem div_mod_length_concat_of_lt {α : Type} {n : Nat} (l : List α) (a : α) (h : l.length % n + 1 < n) :
    (l ++ [a]).length / n = l.length / n ∧ (l ++ [a]).length % n = l.length % n + 1 := by
  have hlen := Nat.mod_add_div l.length n
  rw [List.length_append, List.length_singleton]
  exact (Nat.div_mod_unique (by omega)).2 ⟨by omega, h⟩

/-- An element that completes the last chunk moves the position to the start of the next one. -/
theorem div_mod_length_concat_of_eq {α : Type} {n : Nat} (l : List α) (a : α) (h : l.length % n + 1 = n) :
    (l ++ [a]).length / n = l.length / n + 1 ∧ (l ++ [a]).length % n = 0 := by
  have hlen := Nat.mod_add_div l.length n
  rw [List.length_append, List.length_singleton]
  exact (Nat.div_mod_unique (by omega)).2 ⟨by rw [Nat.mul_add]; omega, by omega⟩

/-- A chunk that was complete stays as it was. -/
theorem take_drop_concat {α : Type} {n i : Nat} (l : List α) (a : α) (h : i < l.length / n) :
    ((l ++ [a]).drop (n * i)).take n = (l.drop (n * i)).take n := by
  have hle : n * (i + 1) ≤ l.length := (Nat.mul_le_mul_left n h).trans (Nat.mul_div_le l.length n)
  rw [Nat.mul_add] at hle
  rw [List.drop_append_of_le_length (by omega), List.take_append_of_le_length (by rw [List.length_drop]; omega)]

/-- An element that leaves the last chunk incomplete adds no chunk. -/
theorem chunks_concat_of_lt {α : Type} {n : Nat} (l : List α) (a : α) (h : l.length % n + 1 < n) :
    chunks n (l ++ [a]) = chunks n l := by
  obtain ⟨hdiv, -⟩ := div_mod_length_concat_of_lt l a h
  simp only [chunks, hdiv]
  exact List.map_congr_left fun i hi => take_drop_concat l a (List.mem_range.1 hi)

/-- An element that completes the last chunk adds it: what was left over, and that element. -/
theorem chunks_concat_of_eq {α : Type} {n : Nat} (l : List α) (a : α) (h : l.length % n + 1 = n) :
    chunks n (l ++ [a]) = chunks n l ++ [l.drop (n * (l.length / n)) ++ [a]] := by
  obtain ⟨hdiv, -⟩ := div_mod_length_concat_of_eq l a h
  have hlen := Nat.mod_add_div l.length n
  simp only [chunks, hdiv, List.range_succ, List.map_append, List.map_singleton]
  congr 1
  · exact List.map_congr_left fun i hi => take_drop_concat l a (List.mem_range.1 hi)
  · rw [List.drop_append_of_le_length (by omega), List.take_of_length_le (by simp; omega)]

/-! ### The bits and the frames of a growing stream -/

/-- There is one bit for each complete window (R81). -/
@[simp] theorem length_bitsOf (S : Nat) (xs : List Int) : (bitsOf S xs).length = xs.length / S := by
  simp [bitsOf, windowsOf]

/-- A sample that leaves the window open adds no bit. -/
theorem bitsOf_concat_of_lt {S : Nat} (xs : List Int) (x : Int) (h : xs.length % S + 1 < S) :
    bitsOf S (xs ++ [x]) = bitsOf S xs := by
  simp only [bitsOf, windowsOf_eq_chunks, chunks_concat_of_lt xs x h]

/-- A sample that closes the window adds the bit of the window's sum. -/
theorem bitsOf_concat_of_eq {S : Nat} (xs : List Int) (x : Int) (h : xs.length % S + 1 = S) :
    bitsOf S (xs ++ [x]) = bitsOf S xs ++ [nrzBit ((xs.drop (S * (xs.length / S))).sum + x)] := by
  simp [bitsOf, windowsOf_eq_chunks, chunks_concat_of_eq xs x h, sumBit]

/-- A valid frame, as a list of bits (R102): start bit 0, stop bit 1. -/
def validFrame (F : List Bool) : Prop := F.getD 0 false = false ∧ F.getD 9 false = true

/-- The reference decoder finds no error exactly when every complete frame is valid (R110). -/
theorem decodeFrames_ok_iff (msg : List Byte) (Fs : List (List Bool)) :
    (decodeFrames msg Fs).2 = .ok ↔ ∀ F ∈ Fs, validFrame F := by
  induction Fs generalizing msg with
  | nil => simp [decodeFrames]
  | cons F Fs ih =>
    rw [List.forall_mem_cons, ← ih (msg ++ [refByte F])]
    rw [decodeFrames, validFrame]
    cases F.getD 0 false <;> cases F.getD 9 false <;> simp

/-- The frames of a bit stream are also frames of the stream one bit longer. -/
theorem mem_framesOf_concat {bits : List Bool} {F : List Bool} (b : Bool) (h : F ∈ framesOf bits) :
    F ∈ framesOf (bits ++ [b]) := by
  rw [framesOf_eq_chunks] at h ⊢
  rcases Nat.lt_or_ge (bits.length % 10 + 1) 10 with hlt | hge
  · rwa [chunks_concat_of_lt bits b hlt]
  · rw [chunks_concat_of_eq bits b (by omega)]
    exact List.mem_append_left _ h

/-- The frames of a sample stream are also frames of the stream one sample longer. -/
theorem mem_framesOf_bitsOf_concat {S : Nat} {xs : List Int} {F : List Bool} (x : Int) (hS : 0 < S)
    (h : F ∈ framesOf (bitsOf S xs)) : F ∈ framesOf (bitsOf S (xs ++ [x])) := by
  rcases Nat.lt_or_ge (xs.length % S + 1) S with hlt | hge
  · rwa [bitsOf_concat_of_lt xs x hlt]
  · rw [bitsOf_concat_of_eq xs x (Nat.le_antisymm (Nat.mod_lt _ hS) hge)]
    exact mem_framesOf_concat _ h

/-! ### A run of SAMPLE steps -/

/-- The state after the samples of a capture, taken one after the other. -/
def takeSamples (xs : List Field) (s : State) : State := xs.foldl (fun u f => sampleState f u) s

@[simp] theorem takeSamples_nil (s : State) : takeSamples [] s = s := rfl

@[simp] theorem takeSamples_cons (f : Field) (xs : List Field) (s : State) :
    takeSamples (f :: xs) s = takeSamples xs (sampleState f s) := rfl

@[simp] theorem takeSamples_concat (xs : List Field) (f : Field) (s : State) :
    takeSamples (xs ++ [f]) s = sampleState f (takeSamples xs s) := by
  simp [takeSamples]

/-- Decoding undoes encoding (R61, R62). -/
@[simp] theorem decode_encode (i : Instr) : decode (encode i) = i := by
  cases i <;> simp [decode, Instr.op, Instr.fld]

/-- The first of the presented transactions is performed, and the others are still to come (R120). -/
theorem step_presentAll_cons (i : Instr) (is : List Instr) {s : State} (hr : s.refused = false) :
    step (presentAll (i :: is) s) = exec i (presentAll is s) := by
  have hf := fetch_presentWord (presentAll (i :: is) s) (encode i) (is.map present ++ s.input) hr rfl
  rw [decode_encode] at hf
  simp only [step, hf]
  rfl

/-- What is still to be presented plays no part in SAMPLE. -/
theorem sampleState_presentAll (f : Field) (is : List Instr) (s : State) :
    sampleState f (presentAll is s) = presentAll is (sampleState f s) := by
  obtain ⟨-, -, hinput, -⟩ := sampleState_frame f s
  rw [presentAll, sampleState_input, ← hinput]
  rfl

/-- Presenting a capture and running as many steps takes its samples (R41, R120). -/
theorem run_sampleInstrs (xs : List Field) {s : State} (hr : s.refused = false) :
    core.run xs.length (presentAll (sampleInstrs xs) s) = .next (takeSamples xs s) := by
  induction xs generalizing s with
  | nil => rfl
  | cons f xs ih =>
    obtain ⟨-, hmark, -⟩ := sampleState_frame f s
    have hstep : step (presentAll (sampleInstrs (f :: xs)) s) = .next (presentAll (sampleInstrs xs) (sampleState f s)) :=
      (step_presentAll_cons (.sample f) (sampleInstrs xs) hr).trans
        (congrArg Host.Outcome.next (sampleState_presentAll f (sampleInstrs xs) s))
    exact (run_succ xs.length _ _ hstep).trans (ih (hmark.trans hr))

/-! ### What the registers hold -/

/-- The frame registers hold the position in a bit stream without an invalid frame, and the bits of its incomplete frame (R25, R26,
R28, R86). -/
structure HoldsFrame (bits : List Bool) (s : State) : Prop where
  phase : s.phase = .run
  bcnt : s.bcnt.toNat = bits.length % 10
  chars : s.chars = BitVec.ofNat 32 (bits.length / 10)
  fbits : ∀ k, k < s.bcnt.toNat → s.fbits.getLsbD k = bits.getD (10 * (bits.length / 10) + k) false

/-- The registers hold the position in a sample stream without an invalid frame: its incomplete window (R23, R24), and the position in
its bit stream. -/
structure HoldsStream (S : BitVec 16) (xs : List Int) (s : State) : Prop where
  inv : s.Inv
  cfgSpb : s.cfgSpb = S
  scnt : s.scnt.toNat = xs.length % S.toNat
  acc : s.acc.toInt = (xs.drop (S.toNat * (xs.length / S.toNat))).sum
  frame : HoldsFrame (bitsOf S.toNat xs) s

/-- The sample path's registers play no part in the position in the bit stream. -/
theorem HoldsFrame.with_window {bits : List Bool} {s : State} (h : HoldsFrame bits s) (acc : BitVec 32) (scnt : BitVec 16) :
    HoldsFrame bits { s with acc := acc, scnt := scnt } :=
  ⟨h.phase, h.bcnt, h.chars, h.fbits⟩

/-- A bit inside a frame is stored at the frame's next position (R101). -/
theorem pushBit_holdsFrame_of_lt {bits : List Bool} {s : State} (b : Bool) (h : HoldsFrame bits s) (hb : s.bcnt.toNat < 9) :
    HoldsFrame (bits ++ [b]) (pushBit b s) := by
  have e : pushBit b s = { s with fbits := frameWith s.fbits s.bcnt.toNat b, bcnt := s.bcnt + 1#4 } := if_pos hb
  have hbcnt : (s.bcnt + 1#4).toNat = s.bcnt.toNat + 1 := by bv_omega
  have hpos := h.bcnt
  obtain ⟨hdiv, hmod⟩ := div_mod_length_concat_of_lt (n := 10) bits b (by omega)
  rw [e]
  refine ⟨h.phase, ?_, ?_, fun k hk => ?_⟩
  · rw [hmod, ← hpos]
    exact hbcnt
  · rw [hdiv]
    exact h.chars
  · simp only [hbcnt] at hk
    rw [getLsbD_frameWith _ _ _ (by omega), hdiv]
    split
    case isTrue heq =>
      rw [List.getD_append_right _ _ _ _ (by omega), show 10 * (bits.length / 10) + k - bits.length = 0 by omega]
      rfl
    case isFalse hne =>
      rw [List.getD_append _ _ _ _ (by omega)]
      exact h.fbits k (by omega)

/-- The tenth bit of a valid frame empties the frame registers and counts a character (R101, R104). -/
theorem pushBit_holdsFrame_of_eq {bits : List Bool} {s : State} (b : Bool) (h : HoldsFrame bits s) (hb : s.bcnt.toNat = 9)
    (hvalid : validFrame (bits.drop (10 * (bits.length / 10)) ++ [b])) : HoldsFrame (bits ++ [b]) (pushBit b s) := by
  have hpos := h.bcnt
  obtain ⟨hdiv, hmod⟩ := div_mod_length_concat_of_eq (n := 10) bits b (by omega)
  have hlen : (bits.drop (10 * (bits.length / 10))).length = 9 := by rw [List.length_drop]; omega
  obtain ⟨hstart, hstop⟩ := hvalid
  have h0 : s.fbits.getLsbD 0 = false := by
    rw [List.getD_append _ _ _ _ (by omega)] at hstart
    rw [h.fbits 0 (by omega)]
    simpa using hstart
  have h9 : b = true := by
    rw [← hstop, List.getD_append_right _ _ _ _ (by omega), hlen]
    rfl
  rcases pushBit_cases b s with ⟨hlt, -⟩ | ⟨-, hs, -⟩ | ⟨-, -, hb0, -⟩ | ⟨-, -, -, e⟩
  · omega
  · cases h0.symm.trans hs
  · cases h9.symm.trans hb0
  · rw [e]
    refine ⟨h.phase, ?_, ?_, fun k hk => absurd hk (Nat.not_lt_zero k)⟩
    · rw [hmod]
      rfl
    · rw [hdiv, BitVec.ofNat_add, ← h.chars]

/-- PushBit moves the position by one bit, where it completes no invalid frame. -/
theorem pushBit_holdsFrame {bits : List Bool} {s : State} (b : Bool) (h : HoldsFrame bits s)
    (hvalid : ∀ F ∈ framesOf (bits ++ [b]), validFrame F) : HoldsFrame (bits ++ [b]) (pushBit b s) := by
  have hpos := h.bcnt
  rcases Nat.lt_or_ge s.bcnt.toNat 9 with hb | hb
  · exact pushBit_holdsFrame_of_lt b h hb
  · refine pushBit_holdsFrame_of_eq b h (by omega) (hvalid _ ?_)
    rw [framesOf_eq_chunks, chunks_concat_of_eq bits b (by omega)]
    exact List.mem_append_right _ (List.mem_singleton_self _)

/-- The sum of an open window takes the next sample (R84). -/
theorem sum_drop_concat (n : Nat) (xs : List Int) (x : Int) :
    ((xs ++ [x]).drop (n * (xs.length / n))).sum = (xs.drop (n * (xs.length / n))).sum + x := by
  rw [List.drop_append_of_le_length (Nat.mul_div_le _ _)]
  simp

/-- SAMPLE moves the position by one sample, where it completes no invalid frame. -/
theorem sampleState_holdsStream {S : BitVec 16} {xs : List Int} {s : State} (f : Field) (h : HoldsStream S xs s)
    (hvalid : ∀ F ∈ framesOf (bitsOf S.toNat (xs ++ [f.toInt])), validFrame F) :
    HoldsStream S (xs ++ [f.toInt]) (sampleState f s) := by
  obtain ⟨hinv, rfl, hscnt, hacc, hframe⟩ := h
  obtain ⟨hcfg, -⟩ := sampleState_frame f s
  have hbelow := hinv.scnt_below
  have hkept := sampleState_inv hinv f
  rcases Nat.lt_or_ge (s.scnt.toNat + 1) s.cfgSpb.toNat with hn | hn
  · obtain ⟨hdiv, hmod⟩ := div_mod_length_concat_of_lt xs f.toInt (hscnt ▸ hn)
    rw [sampleState_of_window_open f hframe.phase hn] at hkept ⊢
    refine ⟨hkept, rfl, ?_, ?_, ?_⟩
    · rw [hmod, ← hscnt]
      exact toNat_new_count hn
    · rw [hdiv, sum_drop_concat, ← hacc]
      exact hinv.toInt_new_sum f
    · rw [bitsOf_concat_of_lt _ _ (hscnt ▸ hn)]
      exact hframe.with_window _ _
  · have hfull : xs.length % s.cfgSpb.toNat + 1 = s.cfgSpb.toNat := by omega
    obtain ⟨hdiv, hmod⟩ := div_mod_length_concat_of_eq xs f.toInt hfull
    rw [bitsOf_concat_of_eq xs f.toInt hfull, ← hacc] at hvalid
    obtain ⟨-, hacc0, hscnt0, -⟩ := pushBit_frame (nrzBit (s.acc.toInt + f.toInt)) { s with acc := 0#32, scnt := 0#16 }
    rw [← sampleState_of_window_closed f hframe.phase hn] at hacc0 hscnt0
    refine ⟨hkept, hcfg, ?_, ?_, ?_⟩
    · rw [hscnt0, hmod]
      rfl
    · rw [hacc0, List.drop_of_length_le]
      · rfl
      · have := Nat.div_add_mod (xs ++ [f.toInt]).length s.cfgSpb.toNat
        omega
    · rw [bitsOf_concat_of_eq xs f.toInt hfull, ← hacc, sampleState_of_window_closed f hframe.phase hn]
      exact pushBit_holdsFrame _ (hframe.with_window _ _) hvalid

/-- At the start of a stream the registers hold the position of the empty stream. -/
theorem holdsStream_nil {S : BitVec 16} {s : State} (hS : S ≠ 0#16) (hstart : StreamStart S s) : HoldsStream S [] s := by
  rw [← hstart.newStream_eq_self]
  have hbits : bitsOf S.toNat [] = [] := List.length_eq_zero_iff.1 (by simp)
  refine ⟨newStream_inv S s (by bv_omega), rfl, by simp, by simp, ?_⟩
  rw [hbits]
  exact ⟨rfl, rfl, rfl, fun k hk => absurd hk (Nat.not_lt_zero k)⟩

/-- After the samples of a capture without an invalid frame the registers hold the position in it (R86). -/
theorem takeSamples_holdsStream {S : BitVec 16} {s : State} (hS : S ≠ 0#16) (hstart : StreamStart S s) (xs : List Field)
    (hvalid : ∀ F ∈ framesOf (bitsOf S.toNat (sampleValues xs)), validFrame F) :
    HoldsStream S (sampleValues xs) (takeSamples xs s) := by
  induction xs using List.reverseRecOn with
  | nil => exact holdsStream_nil hS hstart
  | append_singleton xs f ih =>
    have hvalues : sampleValues (xs ++ [f]) = sampleValues xs ++ [f.toInt] := by simp [sampleValues]
    rw [hvalues] at hvalid ⊢
    rw [takeSamples_concat]
    have hpos : 0 < S.toNat := by bv_omega
    exact sampleState_holdsStream f (ih fun F hF => hvalid F (mem_framesOf_bitsOf_concat f.toInt hpos hF)) hvalid

/-- No start of a stream holds the `refused` mark. -/
theorem StreamStart.refused_eq_false {S : BitVec 16} {s : State} (h : StreamStart S s) : s.refused = false := by
  cases h with
  | powerOn ps => rfl
  | resetStep s _ hr => exact hr
  | clearLoad s _ hr _ hexec => cases hexec; exact hr
  | clearKeep s _ hr _ hexec => cases hexec; exact hr

/-- Settles O40, by induction on the samples from the last one: each SAMPLE moves the position by one sample, since the frames of the
shorter stream are among those of the longer one, and so are valid too. -/
theorem registersHoldTheStreamPosition : Obligations.RegistersHoldTheStreamPosition := by
  intro S s t xs hS hstart hok hrun
  rw [run_sampleInstrs xs hstart.refused_eq_false] at hrun
  cases hrun
  obtain ⟨hinv, -, hscnt, hacc, hphase, hbcnt, hchars, hfbits⟩ :=
    takeSamples_holdsStream hS hstart xs ((decodeFrames_ok_iff [] _).1 hok)
  have hlen : (sampleValues xs).length = xs.length := List.length_map ..
  rw [length_bitsOf, hlen] at hbcnt hchars hfbits
  rw [hlen] at hscnt hacc
  refine ⟨hphase, hinv.err_of_run hphase, hscnt, hbcnt, ?_, hacc, hfbits⟩
  rw [hchars, BitVec.toNat_ofNat]

end Sys2Proof.Machine

/-! The memory family (spec 20_memory.md): the output stream is only appended to, at most one event a step (R46), and what it already
holds plays no part in what a step does (R47). -/

namespace Sys2Proof.Machine

/-! ### Operations that only append to the output -/

/-- From `s`, `g` appends at most one event, and neither that event nor any register it writes depends on what was emitted before. -/
def AppendsAtMostOne (g : State → State) (s : State) : Prop :=
  ∃ evs : List OutputEvent, evs.length ≤ 1 ∧ ∀ out : List OutputEvent, g { s with out := out } = { g s with out := out ++ evs }

/-- An operation that leaves the output as it finds it appends nothing. -/
theorem appendsAtMostOne_of_silent {g : State → State} {s : State}
    (h : ∀ out : List OutputEvent, g { s with out := out } = { g s with out := out }) : AppendsAtMostOne g s :=
  ⟨[], Nat.zero_le 1, fun out => by rw [List.append_nil]; exact h out⟩

/-- The completion of a frame appends the event of its check: the exception's, or the character. -/
theorem completeFrame_appendsAtMostOne (F : FrameWord) (s : State) : AppendsAtMostOne (completeFrame F) s := by
  unfold AppendsAtMostOne completeFrame
  cases frameCheck F with
  | some k => exact ⟨[k.event], Nat.le_refl 1, fun _ => rfl⟩
  | none => exact ⟨[.char (frameByte F)], Nat.le_refl 1, fun _ => rfl⟩

/-- Only a SAMPLE that completes a frame appends an event; each row of the write table is chosen by the registers alone. -/
theorem sampleState_appendsAtMostOne (f : Field) (s : State) : AppendsAtMostOne (sampleState f) s := by
  by_cases hp : s.phase = .run
  case neg =>
    refine appendsAtMostOne_of_silent fun out => ?_
    rw [sampleState_ended f s hp]
    exact sampleState_ended f { s with out := out } hp
  rcases Nat.lt_or_ge (s.scnt.toNat + 1) s.cfgSpb.toNat with hn | hn
  · refine appendsAtMostOne_of_silent fun out => ?_
    rw [sampleState_of_window_open f hp hn]
    exact sampleState_of_window_open (s := { s with out := out }) f hp hn
  rcases Nat.lt_or_ge s.bcnt.toNat 9 with hb | hb
  · refine appendsAtMostOne_of_silent fun out => ?_
    rw [sampleState_of_frame_open f hp hn hb]
    exact sampleState_of_frame_open (s := { s with out := out }) f hp hn hb
  · obtain ⟨evs, hlen, hframe⟩ := completeFrame_appendsAtMostOne
      (frameWith s.fbits 9 (nrzBit (s.acc.toInt + f.toInt))) { s with acc := 0#32, scnt := 0#16 }
    refine ⟨evs, hlen, fun out => ?_⟩
    rw [sampleState_of_frame_full f hp hn hb]
    exact (sampleState_of_frame_full (s := { s with out := out }) f hp hn hb).trans (hframe out)

/-- EOS appends DONE in RUN, and nothing in an ended run. -/
theorem eosState_appendsAtMostOne (s : State) : AppendsAtMostOne eosState s := by
  by_cases hp : s.phase = .run
  · refine ⟨[.done], Nat.le_refl 1, fun out => ?_⟩
    rw [eosState_run s hp]
    exact eosState_run { s with out := out } hp
  · refine appendsAtMostOne_of_silent fun out => ?_
    rw [eosState_ended s hp]
    exact eosState_ended { s with out := out } hp

/-! ### The step -/

/-- What a fetch has found, with another output in the state to go on from. -/
def Fetched.withOut (out : List OutputEvent) : Fetched → Fetched
  | .stop r => .stop r
  | .reset s => .reset { s with out := out }
  | .transaction i s => .transaction i { s with out := out }

/-- The fetch does not look at the output. -/
theorem fetch_with_out (s : State) (out : List OutputEvent) : fetch { s with out := out } = (fetch s).withOut out := by
  by_cases hr : s.refused = true
  · rw [fetch_refused s hr]
    exact fetch_refused { s with out := out } hr
  · rw [Bool.not_eq_true] at hr
    rw [fetch_eq s hr, fetch_eq { s with out := out } hr]
    dsimp only
    cases nextPresented s.input with
    | none => rfl
    | some next =>
      dsimp only
      split <;> rfl

/-- The reset step, with another output before it. -/
theorem step_with_out_of_reset {s u : State} (hf : fetch s = .reset u) (out : List OutputEvent) :
    step { s with out := out } = .next (powerOnReset { u with out := out }) := by
  rw [step, fetch_with_out, hf]
  rfl

/-- The step of a transaction, with another output before it. -/
theorem step_with_out_of_transaction {s u : State} {i : Instr} (hf : fetch s = .transaction i u) (out : List OutputEvent) :
    step { s with out := out } = exec i { u with out := out } := by
  rw [step, fetch_with_out, hf]
  rfl

/-- A step appends at most one event (R46), and with another output before it, it does the same (R47). -/
theorem step_with_out {s t : State} (hstep : step s = .next t) :
    ∃ evs : List OutputEvent, evs.length ≤ 1 ∧
      ∀ out : List OutputEvent, step { s with out := out } = .next { t with out := out ++ evs } := by
  obtain ⟨-, rest, ⟨hf, rfl⟩ | ⟨f, hf, rfl⟩ | ⟨f, hf, rfl⟩ | ⟨f, hf, rfl⟩⟩ := step_cases s t hstep
  · obtain ⟨evs, hlen, hreset⟩ := appendsAtMostOne_of_silent (g := powerOnReset) (s := { s with input := rest }) fun _ => rfl
    exact ⟨evs, hlen, fun out => (step_with_out_of_reset hf out).trans (congrArg _ (hreset out))⟩
  · obtain ⟨evs, hlen, hsample⟩ := sampleState_appendsAtMostOne f { s with input := rest }
    exact ⟨evs, hlen, fun out => (step_with_out_of_transaction hf out).trans (congrArg Host.Outcome.next (hsample out))⟩
  · obtain ⟨evs, hlen, heos⟩ := eosState_appendsAtMostOne { s with input := rest }
    exact ⟨evs, hlen, fun out => (step_with_out_of_transaction hf out).trans (congrArg Host.Outcome.next (heos out))⟩
  · obtain ⟨evs, hlen, hclear⟩ :=
      appendsAtMostOne_of_silent (g := fun u => newStream (clearSpb f u) u) (s := { s with input := rest }) fun _ => rfl
    exact ⟨evs, hlen, fun out => (step_with_out_of_transaction hf out).trans (congrArg Host.Outcome.next (hclear out))⟩

/-- The event a step presents is the first of those it appended. -/
theorem presentedEvent_of_out {s t : State} {evs : List OutputEvent} (h : t.out = s.out ++ evs) :
    presentedEvent s t = evs.head? := by
  rw [presentedEvent, h, List.drop_left]

/-! ### Runs -/

/-- A run only appends to the output, and with another output before it, it appends the same events and ends with the same
registers (R47). -/
theorem run_with_out (n : Nat) {s t : State} (hrun : core.run n s = .next t) :
    ∃ evs : List OutputEvent,
      ∀ out : List OutputEvent, core.run n { s with out := out } = .next { t with out := out ++ evs } := by
  induction n generalizing s with
  | zero =>
    cases hrun
    exact ⟨[], fun out => by rw [List.append_nil]; rfl⟩
  | succ n ih =>
    obtain ⟨u, hstep, hrest⟩ := run_succ_next n s t hrun
    obtain ⟨evs, -, hevs⟩ := step_with_out hstep
    obtain ⟨later, hlater⟩ := ih hrest
    refine ⟨evs ++ later, fun out => ?_⟩
    rw [run_succ n _ _ (hevs out), ← List.append_assoc]
    exact hlater (out ++ evs)

/-- States with equal registers, marks and input differ in their output alone. -/
theorem SameRegisters.eq_with_out {s s' : State} (h : SameRegisters s s') (hr : s.refused = s'.refused)
    (hi : s.input = s'.input) : s' = { s with out := s'.out } := by
  cases s
  cases s'
  obtain ⟨rfl, rfl, rfl, rfl, rfl, rfl, rfl, rfl⟩ := h
  cases hr
  cases hi
  rfl

/-! ### The obligations about the output stream -/

/-- Settles O26: the second state is the first with another output, from which a run, by induction on its steps, appends the same
events and ends with the same registers. -/
theorem runDependsOnlyOnRegistersAndInput : Obligations.RunDependsOnlyOnRegistersAndInput := by
  intro n s s' t hsame hr hi hrun
  obtain ⟨evs, hevs⟩ := run_with_out n hrun
  have hout : t.out = s.out ++ evs := congrArg State.out (Host.Outcome.next.inj (hrun.symm.trans (hevs s.out)))
  refine ⟨{ t with out := s'.out ++ evs }, evs, ?_, ⟨rfl, rfl, rfl, rfl, rfl, rfl, rfl, rfl⟩, rfl, hout, rfl⟩
  rw [hsame.eq_with_out hr hi]
  exact hevs s'.out

/-- Settles O24: the events are the ones the step appends, at most one, so the first of them is all that the port presents. -/
theorem atMostOneEventAStep : Obligations.AtMostOneEventAStep := by
  intro s t hstep
  obtain ⟨evs, hlen, hevs⟩ := step_with_out hstep
  have hout : t.out = s.out ++ evs := congrArg State.out (Host.Outcome.next.inj (hstep.symm.trans (hevs s.out)))
  have hpresented := presentedEvent_of_out hout
  refine ⟨evs, hlen, hout, ?_, ?_⟩
  · rw [outValid, hpresented]
    cases evs <;> rfl
  · rw [outWord, hpresented]

end Sys2Proof.Machine

/-! The encoding family (spec 30_encoding.md): the opcode map and its decoder (R61 to R63, R65), the trace language (R69, R70), the
event words (R64) and the STATUS view (R67). -/

namespace Sys2Proof.Machine

/-! ### The decoder and the encoder -/

/-- A word is its two fields (R61). -/
theorem opField_append_fldField (w : InWord) : opField w ++ fldField w = w := BitVec.extractLsb'_append_extractLsb'

/-- The decoder reads `op` into the row. -/
@[simp] theorem op_decode (w : InWord) : (decode w).op = opField w := by
  unfold decode
  split
  case h_1 h => exact (BitVec.eq_of_toNat_eq h).symm
  case h_2 h => exact (BitVec.eq_of_toNat_eq h).symm
  case h_3 h => exact (BitVec.eq_of_toNat_eq h).symm
  case h_4 h0 h1 h2 =>
    rw [imp_false] at h0 h1 h2
    change 0b11#2 = opField w
    bv_omega

/-- The decoder keeps the field, whatever the row. -/
@[simp] theorem fld_decode (w : InWord) : (decode w).fld = fldField w := by
  unfold decode
  split <;> rfl

/-- Encoding undoes decoding (R61, R62). -/
@[simp] theorem encode_decode (w : InWord) : encode (decode w) = w := by
  rw [encode, op_decode, fld_decode, opField_append_fldField]

/-- Settles O3: a transaction is its `op` and its field, and the decoder and the encoder keep both. -/
theorem decodeEncodeAgree : Obligations.DecodeEncodeAgree := ⟨decode_encode, encode_decode⟩

/-- Settles O1, by running the decoder on each of the words. -/
theorem writtenWordsDecode : Obligations.WrittenWordsDecode := by
  unfold Obligations.WrittenWordsDecode
  decide

/-- A word decodes to a transaction exactly when its two fields are the transaction's. -/
theorem decode_eq_iff (w : InWord) (i : Instr) : decode w = i ↔ opField w = i.op ∧ fldField w = i.fld := by
  constructor
  · rintro rfl
    exact ⟨(op_decode w).symm, (fld_decode w).symm⟩
  · rintro ⟨hop, hfld⟩
    rw [← opField_append_fldField w, hop, hfld]
    exact decode_encode i

/-- Among the transactions with the word's field, `op` selects the one it decodes to (R62). -/
theorem opField_eq_iff {w : InWord} {i : Instr} (hfld : fldField w = i.fld) : opField w = i.op ↔ decode w = i :=
  ⟨fun hop => (decode_eq_iff w i).2 ⟨hop, hfld⟩, fun h => ((decode_eq_iff w i).1 h).1⟩

/-! ### The opcode map -/

/-- The row of the opcode map a transaction is of: its name and its `op` (R62). -/
def rowOf (i : Instr) : OpcodeRow := ⟨i.mnemonic, i.op ++ 0#16, 0x30000#18⟩

/-- It is a row of the map. -/
theorem rowOf_mem_opcodeTable (i : Instr) : rowOf i ∈ opcodeTable := by
  cases i <;> simp [opcodeTable, rowOf, Instr.mnemonic, Instr.op]

/-- Every row is told from the others by `op` alone, and no two have the same (R62). -/
theorem opcodeTable_rows : ∀ r ∈ opcodeTable, r.mask = 0x30000#18 ∧ ∀ r' ∈ opcodeTable, r.pattern = r'.pattern → r = r' := by
  decide

/-- The word of a transaction is of the transaction's row, and of no other. -/
theorem matches_encode_iff {r : OpcodeRow} (hr : r ∈ opcodeTable) (i : Instr) :
    r.matches (encode i) = true ↔ r = rowOf i := by
  obtain ⟨hmask, hinj⟩ := opcodeTable_rows r hr
  have hword : encode i &&& r.mask = (rowOf i).pattern := hmask ▸ Laws.mask_encode i.op i.fld
  rw [OpcodeRow.matches, hword, beq_iff_eq]
  exact ⟨fun h => hinj _ (rowOf_mem_opcodeTable i) h.symm, fun h => h ▸ rfl⟩

/-- Settles O2: a word is the encoding of the transaction it decodes to, which is of one row; the other clauses say which fields
a word decodes from. -/
theorem everyWordIsOfExactlyOneRow : Obligations.EveryWordIsOfExactlyOneRow := by
  refine ⟨rfl, fun w => ⟨⟨rowOf (decode w), rowOf_mem_opcodeTable _, ?_, rfl, fun r hr hw => ?_⟩,
    opField_eq_iff (i := .sample (fldField w)) rfl, opField_eq_iff (i := .eos (fldField w)) rfl,
    opField_eq_iff (i := .clear (fldField w)) rfl, opField_eq_iff (i := .reserved (fldField w)) rfl⟩⟩
  · have h := (matches_encode_iff (rowOf_mem_opcodeTable (decode w)) (decode w)).2 rfl
    rwa [encode_decode] at h
  · rw [← encode_decode w] at hw
    exact (matches_encode_iff hr (decode w)).1 hw

/-! ### The trace language and the reserved transaction -/

/-- A sample value in range survives the 16 bits of the field (R69). -/
theorem toInt_sampleField {v : Int} (hlo : -32768 ≤ v) (hhi : v ≤ 32767) : (BitVec.ofInt 16 v).toInt = v :=
  BitVec.toInt_ofInt_eq_self (by decide) hlo (Int.lt_add_one_of_le hhi)

/-- A line with its operands in range assembles to the words of its transactions. -/
theorem assemble_of_wf {l : TraceLine} (S : Nat) (h : l.wf = true) : l.assemble S = some ((l.expand S).map encode) := if_pos h

/-- A line with an operand out of range assembles to nothing. -/
theorem assemble_of_not_wf {l : TraceLine} (S : Nat) (h : ¬ l.wf = true) : l.assemble S = none := if_neg h

theorem wf_sample_iff (v : Int) : (TraceLine.sample v).wf = true ↔ -32768 ≤ v ∧ v ≤ 32767 := by
  simp [TraceLine.wf, sampleInRange]

theorem wf_clear_some_iff (n : Nat) : (TraceLine.clear (some n)).wf = true ↔ n ≤ 65535 := decide_eq_true_iff

/-- Settles O5: each line in range assembles to the encoding of its one transaction, which decodes back to it. -/
theorem traceLinesAssemble : Obligations.TraceLinesAssemble := by
  refine ⟨fun S v hlo hhi => ?_, fun S v hv => ?_, fun S => rfl, fun S n hn => ?_, fun S n hn => ?_, fun S => rfl⟩
  · exact ⟨BitVec.ofInt 16 v, toInt_sampleField hlo hhi, assemble_of_wf S ((wf_sample_iff v).2 ⟨hlo, hhi⟩),
      decode_encode (.sample _)⟩
  · exact assemble_of_not_wf S fun h => by
      have := (wf_sample_iff v).1 h
      omega
  · exact ⟨assemble_of_wf S ((wf_clear_some_iff n).2 hn), decode_encode (.clear _)⟩
  · exact assemble_of_not_wf S fun h => absurd ((wf_clear_some_iff n).1 h) (Nat.not_le.2 hn)

/-- Settles O10: a state with the mark makes no step, and none of the steps that answer a next state sets it. -/
theorem reservedTransactionIsRefused : Obligations.ReservedTransactionIsRefused := by
  refine ⟨fun f s => rfl, fun s hr => ?_, fun s t hstep => ?_, fun f g s => rfl⟩
  · rw [step, fetch_refused s hr]
  · obtain ⟨hr, -⟩ := step_cases s t hstep
    exact ⟨hr, step_next_refused hstep⟩

/-! ### Output events -/

theorem word_kind (e : OutputEvent) : e.word.extractLsb' 8 2 = e.kind := BitVec.extractLsb'_append_eq_left

theorem word_data (e : OutputEvent) : e.word.extractLsb' 0 8 = e.data := BitVec.extractLsb'_append_eq_right

/-- The event with a given kind, and data where the kind is that of CHAR (R64). -/
def eventOf (kind : BitVec 2) (data : Byte) : OutputEvent :=
  match kind.toNat with
  | 0 => .char data
  | 1 => .errStart
  | 2 => .errStop
  | _ => .done

/-- The kind and the data of an event say which event it is. -/
theorem eventOf_kind_data (e : OutputEvent) : eventOf e.kind e.data = e := by
  cases e <;> rfl

/-- No two events share a word: an event is read back from the fields of its word. -/
theorem word_injective : Function.Injective OutputEvent.word :=
  Function.LeftInverse.injective (g := fun w => eventOf (w.extractLsb' 8 2) (w.extractLsb' 0 8)) fun e => by
    simp only [word_kind, word_data, eventOf_kind_data]

/-- Settles O6: the words are computed from their fields, which can be read back from them. -/
theorem outputEventWords : Obligations.OutputEventWords :=
  ⟨fun _ => rfl, rfl, rfl, rfl, fun e => ⟨word_kind e, word_data e⟩, fun _ _ h => word_injective h⟩

/-! ### The views -/

theorem statusView_phase (s : State) : (statusView s).extractLsb' 0 2 = s.phase.code := by
  unfold statusView
  rw [BitVec.extractLsb'_append_eq_of_add_le (by decide), BitVec.extractLsb'_append_eq_of_add_le (by decide)]
  exact BitVec.extractLsb'_append_eq_right

theorem statusView_err (s : State) : (statusView s).extractLsb' 2 2 = s.err.code := by
  unfold statusView
  rw [BitVec.extractLsb'_append_eq_of_add_le (by decide), BitVec.extractLsb'_append_eq_of_add_le (by decide)]
  exact BitVec.extractLsb'_append_eq_left

theorem statusView_bcnt (s : State) : (statusView s).extractLsb' 4 4 = s.bcnt := by
  unfold statusView
  rw [BitVec.extractLsb'_append_eq_of_add_le (by decide)]
  exact BitVec.extractLsb'_append_eq_left

theorem statusView_reserved (s : State) : (statusView s).extractLsb' 8 8 = 0#8 := BitVec.extractLsb'_append_eq_left

/-- In RUN, STATUS is BCNT in its place and nothing else (R67). -/
theorem statusView_toNat_of_run {s : State} (h : s.Inv) (hp : s.phase = .run) : (statusView s).toNat = 16 * s.bcnt.toNat := by
  rw [statusView, h.err_of_run hp, hp, BitVec.toNat_append, BitVec.toNat_append]
  simp [ErrCode.code, Phase.code, Nat.shiftLeft_eq, Nat.mul_comm]

/-- Once the run has ended, BCNT is 0, so STATUS is the codes of `err` and `phase` (R67). -/
theorem statusView_of_ended {s : State} (h : s.Inv) (hp : s.phase ≠ .run) :
    statusView s = 0#8 ++ (0#4 ++ (s.err.code ++ s.phase.code)) := by
  obtain ⟨-, -, -, hbcnt⟩ := h.ended_empty hp
  rw [statusView, hbcnt]

/-- In DONE there is no error. -/
theorem State.Inv.err_of_done {s : State} (h : s.Inv) (hp : s.phase = .done) : s.err = .none := by
  by_contra he
  simp [h.err_iff_phase.1 he] at hp

/-- Settles O25: the fields are the parts STATUS is joined from; R32 says which of them are 0 in each phase. -/
theorem viewsShowTheRegisters : Obligations.ViewsShowTheRegisters := by
  refine ⟨fun s => ⟨statusView_phase s, statusView_err s, statusView_bcnt s, statusView_reserved s, rfl, rfl⟩,
    fun s h => ⟨?_, statusView_toNat_of_run h, fun hp => ?_, fun hp => ?_⟩, rfl⟩
  · rw [statusView_bcnt]
    exact h.bcnt_le_nine
  · rw [statusView_of_ended h (by simp [hp]), h.err_of_done hp, hp]
    rfl
  · rw [statusView_of_ended h (by simp [hp]), hp]
    cases he : s.err with
    | none => exact absurd he (h.err_iff_phase.2 hp)
    | start => exact .inl ⟨rfl, rfl⟩
    | stop => exact .inr ⟨rfl, rfl⟩

end Sys2Proof.Machine

/-! The round trip of a message written in the trace language (spec 30_encoding.md R70, 41_frame_path.md R107): samples fill windows
(R84), the bits of the windows fill frames (R101), and a run of a capture and its EOS. -/

namespace Sys2Proof.Machine

/-! ### A run of SAMPLE steps, window by window -/

theorem takeSamples_append (xs ys : List Field) (s : State) : takeSamples (xs ++ ys) s = takeSamples ys (takeSamples xs s) :=
  List.foldl_append

/-- Samples keep R32. -/
theorem takeSamples_inv (xs : List Field) {s : State} (h : s.Inv) : (takeSamples xs s).Inv := by
  induction xs generalizing s with
  | nil => exact h
  | cons f xs ih => exact ih (sampleState_inv h f)

/-- The samples that fill the window up pass the bit of the window's sum to the frame path (R84). -/
theorem takeSamples_fill_window {ws : List Field} {s : State} (h : s.Inv) (hp : s.phase = .run)
    (hlen : s.scnt.toNat + ws.length = s.cfgSpb.toNat) :
    takeSamples ws s = pushBit (nrzBit (s.acc.toInt + (sampleValues ws).sum)) { s with acc := 0#32, scnt := 0#16 } := by
  induction ws generalizing s with
  | nil => exact absurd h.scnt_below (Nat.not_lt.2 (Nat.le_of_eq hlen.symm))
  | cons f ws ih =>
    rw [List.length_cons] at hlen
    rw [takeSamples_cons]
    rcases Nat.lt_or_ge (s.scnt.toNat + 1) s.cfgSpb.toNat with hn | hn
    · have hkept := sampleState_inv h f
      rw [sampleState_of_window_open f hp hn] at hkept ⊢
      rw [ih hkept hp (by simp only [toNat_new_count hn]; omega)]
      simp only [h.toInt_new_sum f, sampleValues, List.map_cons, List.sum_cons, sampleOperand_eq, Int.add_assoc]
    · obtain rfl : ws = [] := List.eq_nil_of_length_eq_zero (by omega)
      rw [sampleState_of_window_closed f hp hn]
      simp [sampleValues]

/-! ### Bits written at a drive level -/

/-- The samples of `BIT b` at drive level `a` (R70). -/
def bitSamples (spb a : Nat) (b : Bool) : List Field := List.replicate spb (BitVec.ofInt 16 (if b then (a : Int) else -(a : Int)))

/-- `FRAMEBITS` is the samples of its bits. -/
theorem frameBitsInstrs_eq_sampleInstrs (spb a : Nat) (bs : List Bool) :
    frameBitsInstrs spb a bs = sampleInstrs (bs.flatMap (bitSamples spb a)) := by
  have hbit (b : Bool) : bitInstrs spb a b = (bitSamples spb a b).map Instr.sample := by
    rw [bitSamples, List.map_replicate]
    rfl
  rw [frameBitsInstrs, sampleInstrs, List.map_flatMap, funext hbit]

/-- MSG is the samples of the bits of its frames. -/
theorem msgInstrs_eq_sampleInstrs (spb a : Nat) (text : List Byte) :
    msgInstrs spb a text = sampleInstrs ((text.flatMap frameBitsOf).flatMap (bitSamples spb a)) :=
  List.flatMap_assoc.symm.trans (frameBitsInstrs_eq_sampleInstrs spb a (text.flatMap frameBitsOf))

/-- The sum of a window written at a drive level has the sign of its bit (R83). -/
theorem nrzBit_sum_bitSamples {spb a : Nat} (b : Bool) (hspb : 0 < spb) (ha : 1 ≤ a) (hmax : a ≤ 32767) :
    nrzBit (sampleValues (bitSamples spb a b)).sum = b := by
  have hpos : 0 < (spb : Int) * a := Int.mul_pos (by omega) (by omega)
  rw [bitSamples, sampleValues, List.map_replicate, List.sum_replicate_int, sampleOperand_eq,
    toInt_sampleField (by split <;> omega) (by split <;> omega)]
  cases b with
  | true => exact decide_eq_true hpos
  | false => exact decide_eq_false (by simp; omega)

/-! ### Bits pushed one after the other -/

/-- The bits of a list, pushed one after the other. -/
def pushBits (bs : List Bool) (s : State) : State := bs.foldl (fun u b => pushBit b u) s

@[simp] theorem pushBits_nil (s : State) : pushBits [] s = s := rfl

@[simp] theorem pushBits_cons (b : Bool) (bs : List Bool) (s : State) : pushBits (b :: bs) s = pushBits bs (pushBit b s) := rfl

@[simp] theorem pushBits_append (bs cs : List Bool) (s : State) : pushBits (bs ++ cs) s = pushBits cs (pushBits bs s) :=
  List.foldl_append

/-- PushBit never leads back into RUN. -/
theorem phase_run_of_pushBit {b : Bool} {s : State} (h : (pushBit b s).phase = .run) : s.phase = .run := by
  rcases pushBit_cases b s with ⟨-, e⟩ | ⟨-, -, e⟩ | ⟨-, -, -, e⟩ | ⟨-, -, -, e⟩ <;> rw [e] at h
  · exact h
  · cases h
  · cases h
  · exact h

theorem phase_run_of_pushBits {bs : List Bool} {s : State} (h : (pushBits bs s).phase = .run) : s.phase = .run := by
  induction bs generalizing s with
  | nil => exact h
  | cons b bs ih => exact phase_run_of_pushBit (ih h)

/-- With an empty window, the samples of a bit push that bit. -/
theorem takeSamples_bitSamples {a : Nat} {s : State} (b : Bool) (h : s.Inv) (hp : s.phase = .run) (hscnt : s.scnt = 0#16)
    (ha : 1 ≤ a) (hmax : a ≤ 32767) : takeSamples (bitSamples s.cfgSpb.toNat a b) s = pushBit b s := by
  have hacc : s.acc = 0#32 := by
    have hbound := h.acc_bound
    rw [hscnt] at hbound
    exact BitVec.eq_of_toInt_eq (by simpa using hbound)
  have hempty : { s with acc := 0#32, scnt := 0#16 } = s := by rw [← hacc, ← hscnt]
  rw [takeSamples_fill_window h hp (by simp [hscnt, bitSamples]), hempty, hacc, BitVec.toInt_zero, Int.zero_add,
    nrzBit_sum_bitSamples b h.cfg_positive ha hmax]

/-- With an empty window, the samples of the bits of a list push those bits, where none of them enters the error state. -/
theorem takeSamples_flatMap_bitSamples {a : Nat} {bs : List Bool} {s : State} (h : s.Inv) (hscnt : s.scnt = 0#16)
    (hrun : (pushBits bs s).phase = .run) (ha : 1 ≤ a) (hmax : a ≤ 32767) :
    takeSamples (bs.flatMap (bitSamples s.cfgSpb.toNat a)) s = pushBits bs s := by
  induction bs generalizing s with
  | nil => rfl
  | cons b bs ih =>
    have hbit := takeSamples_bitSamples b h (phase_run_of_pushBits hrun) hscnt ha hmax
    obtain ⟨hcfg, -, hscnt', -⟩ := pushBit_frame b s
    have hkept : (pushBit b s).Inv := hbit ▸ takeSamples_inv _ h
    rw [List.flatMap_cons, takeSamples_append, hbit, ← hcfg]
    exact ih hkept (hscnt'.trans hscnt) hrun

/-! ### A synthetic frame -/

/-- The data bits of a synthetic frame are those of its byte, least significant first (R107). -/
theorem frameBitsOf_eq (x : Byte) : frameBitsOf x = (false :: (List.range 8).map x.getLsbD) ++ [true] := rfl

/-- From an empty frame, up to nine bits are stored in order, and nothing else changes (R101). -/
theorem pushBits_stores (bs : List Bool) {s : State} (hb : s.bcnt = 0#4) (hlen : bs.length ≤ 9) :
    ∃ (F : FrameWord) (n : BitVec 4), pushBits bs s = { s with fbits := F, bcnt := n } ∧ n.toNat = bs.length ∧
      ∀ k, k < bs.length → F.getLsbD k = bs.getD k false := by
  induction bs using List.reverseRecOn with
  | nil => exact ⟨s.fbits, s.bcnt, rfl, by simp [hb], by simp⟩
  | append_singleton bs b ih =>
    rw [List.length_append, List.length_singleton] at hlen ⊢
    obtain ⟨F, n, hpush, hn, hF⟩ := ih (by omega)
    have hstore : pushBit b { s with fbits := F, bcnt := n } = { s with fbits := frameWith F n.toNat b, bcnt := n + 1#4 } :=
      if_pos (by simp only; omega)
    refine ⟨_, _, (pushBits_append bs [b] s).trans (hpush ▸ hstore), by bv_omega, fun k hk => ?_⟩
    rw [getLsbD_frameWith F n.toNat b (by omega), hn]
    split
    case isTrue heq =>
      subst heq
      simp
    case isFalse hne =>
      rw [hF k (by omega), List.getD_append _ _ _ _ (by omega)]

/-- The synthetic frame of a byte, pushed into an empty frame register, emits and counts exactly that byte (R107). -/
theorem pushBits_frameBitsOf (x : Byte) {s : State} (hf : s.fbits = 0#10) (hb : s.bcnt = 0#4) :
    pushBits (frameBitsOf x) s = { s with chars := s.chars + 1#32, out := s.out ++ [.char x] } := by
  obtain ⟨F, n, hpush, hn, hF⟩ := pushBits_stores (false :: (List.range 8).map x.getLsbD) hb (by simp)
  simp only [List.length_cons, List.length_map, List.length_range] at hn hF
  have hbyte : frameByte (frameWith F 9 true) = x := by
    refine BitVec.eq_of_getLsbD_eq fun j hj => ?_
    rw [getLsbD_frameByte _ j hj, getLsbD_frameWith F 9 true (by decide), if_neg (by omega), hF (j + 1) (by omega)]
    simp [hj]
  rw [frameBitsOf_eq, pushBits_append, hpush, pushBits_cons, pushBits_nil]
  rcases pushBit_cases true { s with fbits := F, bcnt := n } with
    ⟨hlt, -⟩ | ⟨-, hstart, -⟩ | ⟨-, -, hstop, -⟩ | ⟨-, -, -, e⟩
  · simp [hn] at hlt
  · cases (hF 0 (by decide)).symm.trans hstart
  · cases hstop
  · rw [e, ← hf, ← hb, hbyte]

/-- The frames of a message emit and count its bytes. -/
theorem pushBits_message (text : List Byte) {s : State} (hf : s.fbits = 0#10) (hb : s.bcnt = 0#4) :
    pushBits (text.flatMap frameBitsOf) s =
      { s with chars := s.chars + BitVec.ofNat 32 text.length, out := s.out ++ text.map OutputEvent.char } := by
  induction text generalizing s with
  | nil => simp
  | cons x text ih =>
    rw [List.flatMap_cons, pushBits_append, pushBits_frameBitsOf x hf hb, ih (by exact hf) (by exact hb)]
    have hchars : s.chars + 1#32 + BitVec.ofNat 32 text.length = s.chars + BitVec.ofNat 32 (text.length + 1) := by
      rw [BitVec.ofNat_add, BitVec.add_assoc, BitVec.add_comm 1#32]
    simp [hchars]

/-! ### A capture and its EOS -/

theorem takeSamples_presentAll (xs : List Field) (is : List Instr) (s : State) :
    takeSamples xs (presentAll is s) = presentAll is (takeSamples xs s) := by
  induction xs generalizing s with
  | nil => rfl
  | cons f xs ih => rw [takeSamples_cons, takeSamples_cons, sampleState_presentAll, ih]

/-- Samples leave the mark alone. -/
theorem takeSamples_refused (xs : List Field) (s : State) : (takeSamples xs s).refused = s.refused := by
  induction xs generalizing s with
  | nil => rfl
  | cons f xs ih =>
    obtain ⟨-, hmark, -⟩ := sampleState_frame f s
    exact (ih _).trans hmark

/-- Presenting a capture and then EOS takes its samples and ends the stream (R41, R121). -/
theorem run_sampleInstrs_eos (xs : List Field) (f : Field) {s : State} (hr : s.refused = false) :
    core.run (xs.length + 1) (presentAll (sampleInstrs xs ++ [.eos f]) s) = .next (eosState (takeSamples xs s)) := by
  have hpresent : presentAll (sampleInstrs xs ++ [.eos f]) s = presentAll (sampleInstrs xs) (presentAll [.eos f] s) := by
    simp [presentAll]
  have hsamples := run_sampleInstrs xs (s := presentAll [.eos f] s) hr
  rw [takeSamples_presentAll] at hsamples
  rw [hpresent, run_add xs.length 1 _ _ hsamples]
  exact run_succ 0 _ _ (step_presentAll_cons (.eos f) [] ((takeSamples_refused xs s).trans hr))

/-- Settles O41: a run of MSG and EOS takes the samples of the message's bits, window after window; they push those bits, and frame
after frame these emit the message's bytes. -/
theorem messageRoundTrip : Obligations.MessageRoundTrip := by
  intro S s a text f hS hstart ha hmax
  have hr := hstart.refused_eq_false
  rw [← hstart.newStream_eq_self] at hr ⊢
  have hmsg := pushBits_message text (s := newStream S s) rfl rfl
  have htake := takeSamples_flatMap_bitSamples (a := a) (bs := text.flatMap frameBitsOf) (s := newStream S s)
    (newStream_inv S s (by bv_omega)) rfl (by rw [hmsg]; rfl) ha hmax
  rw [newStream_cfgSpb, hmsg] at htake
  have hrun := run_sampleInstrs_eos ((text.flatMap frameBitsOf).flatMap (bitSamples S.toNat a)) f hr
  rw [htake, eosState_run _ (by rfl)] at hrun
  rw [msgInstrs_eq_sampleInstrs, sampleInstrs, List.length_map]
  exact ⟨_, hrun, rfl, rfl, rfl, by simp⟩

end Sys2Proof.Machine

/-! The sample path family (spec 40_sample_path.md): SAMPLE in a window (R84), the mean and the integer decision (R82, R83), and streams
on one side of the threshold (R85). -/

namespace Sys2Proof.Machine

/-! ### SAMPLE in a window -/

/-- Settles O13: the sample that leaves the window open, with R23's and R24's bounds on the new sum and count. -/
theorem sampleExtendsOpenWindow : Obligations.SampleExtendsOpenWindow := by
  intro s f hinv hp hn
  have hexec : exec (.sample f) s = .next _ := congrArg Host.Outcome.next (sampleState_of_window_open f hp hn)
  exact ⟨_, hexec, hinv.toInt_new_sum f, toNat_new_count hn, rfl⟩

/-- Settles O14: the sample that closes the window inside a frame writes the one bit at position `bcnt` of the frame word. -/
theorem sampleClosingWindowStoresBit : Obligations.SampleClosingWindowStoresBit := by
  intro s f _ hp hn hb
  have hexec : exec (.sample f) s = .next _ := congrArg Host.Outcome.next (sampleState_of_frame_open f hp hn.ge hb)
  have hbcnt : (s.bcnt + 1#4).toNat = s.bcnt.toNat + 1 := by bv_omega
  exact ⟨_, hexec, hbcnt, fun k _ => getLsbD_frameWith _ _ _ (hb.trans (by decide)) k, rfl⟩

/-! ### The mean and the sum -/

/-- The amplitudes of a window sum to its integer sum, normalised (R80). -/
theorem sum_map_amplitude (win : List Int) : (win.map amplitude).sum = (win.sum : Rat) / 32768 := by
  induction win with
  | nil => simp
  | cons x win ih =>
    rw [List.map_cons, List.sum_cons, List.sum_cons, ih, amplitude, Int.cast_add, add_div]

/-- The mean is the integer sum over a positive number (R82). -/
theorem windowMean_eq_sum_div (S : Nat) (win : List Int) : windowMean S win = (win.sum : Rat) / (32768 * S) := by
  rw [windowMean, sum_map_amplitude, div_div]

/-- Settles O33: dividing the sum by a positive number keeps its sign, and keeps it 0 or not 0. -/
theorem sumDecisionEqualsMeanDecision : Obligations.SumDecisionEqualsMeanDecision := by
  intro S win hS _
  have hpos : (0 : Rat) < 32768 * S := mul_pos (by norm_num) (Nat.cast_pos.2 hS)
  refine ⟨?_, ?_, fun h => decide_eq_false (by omega)⟩
  · rw [meanBit, sumBit, nrzBit, windowMean_eq_sum_div, decide_eq_decide, div_pos_iff_of_pos_right hpos, Int.cast_pos]
  · rw [windowMean_eq_sum_div, div_eq_zero_iff, or_iff_left hpos.ne', Int.cast_eq_zero]

/-! ### Streams on one side of the threshold -/

/-- A complete chunk has its full length, and its elements are the list's. -/
theorem length_and_subset_of_mem_chunks {α : Type} {n : Nat} {l c : List α} (h : c ∈ chunks n l) : c.length = n ∧ c ⊆ l := by
  obtain ⟨i, hi, rfl⟩ := List.mem_map.1 h
  have hle : n * (i + 1) ≤ l.length := (Nat.mul_le_mul_left n (List.mem_range.1 hi)).trans (Nat.mul_div_le l.length n)
  rw [Nat.mul_add] at hle
  refine ⟨?_, fun x hx => List.mem_of_mem_drop (List.mem_of_mem_take hx)⟩
  rw [List.length_take, List.length_drop]
  omega

/-- A nonempty list of integers below 0 has a sum below 0. -/
theorem sum_neg_of_forall_neg {win : List Int} (hne : win ≠ []) (h : ∀ x ∈ win, x < 0) : win.sum < 0 := by
  have hlt := List.sum_lt_sum_of_ne_nil hne (fun x => x) (fun _ => 0) h
  simpa using hlt

/-- Where the decision gives `b` for every nonempty window cut from the samples, every bit of the stream is `b`. -/
theorem bitsOf_eq_of_sumBit {S : Nat} {xs : List Int} {b : Bool} (hS : 1 ≤ S)
    (h : ∀ win : List Int, win ≠ [] → win ⊆ xs → sumBit win = b) : ∀ c ∈ bitsOf S xs, c = b := by
  intro c hc
  rw [bitsOf, windowsOf_eq_chunks] at hc
  obtain ⟨win, hwin, rfl⟩ := List.mem_map.1 hc
  obtain ⟨hlen, hsub⟩ := length_and_subset_of_mem_chunks hwin
  exact h win (List.ne_nil_of_length_pos (by omega)) hsub

/-- A bit stream that is `b` throughout fails at its first complete frame: on the start bit if `b` is 1, on the stop bit if it is 0
(R102). -/
theorem decodeFrames_framesOf_constant {bits : List Bool} {b : Bool} (h : ∀ c ∈ bits, c = b) (hlen : 10 ≤ bits.length) :
    decodeFrames [] (framesOf bits) = ([], if b then .start else .stop) := by
  have hcount : (framesOf bits).length = bits.length / 10 := by simp [framesOf]
  cases hframes : framesOf bits with
  | nil =>
    rw [hframes, List.length_nil] at hcount
    omega
  | cons F Fs =>
    have hF : F ∈ framesOf bits := hframes ▸ List.mem_cons_self
    obtain ⟨hten, hsub⟩ := length_and_subset_of_mem_chunks (framesOf_eq_chunks bits ▸ hF)
    have hbit (k : Nat) (hk : k < 10) : F.getD k false = b := by
      rw [List.getD_eq_getElem F false (hten.symm ▸ hk)]
      exact h _ (hsub (List.getElem_mem _))
    rw [decodeFrames, hbit 0 (by decide), hbit 9 (by decide)]
    cases b <;> rfl

/-- A sample stream whose bits are all `b` fails at its first complete frame, before any character (R85). -/
theorem refDecode_of_constant_bits {S : Nat} {xs : List Int} {b : Bool} (hS : 1 ≤ S) (h : ∀ c ∈ bitsOf S xs, c = b)
    (hlen : 10 * S ≤ xs.length) : refDecode S xs = ([], if b then .start else .stop) :=
  decodeFrames_framesOf_constant h (by rw [length_bitsOf]; exact (Nat.le_div_iff_mul_le hS).2 hlen)

/-- Settles O34: samples on one side of 0 give every window a sum on that side, so every bit is the same, and such a stream fails at its
first frame. -/
theorem oneSidedStreamsFail : Obligations.OneSidedStreamsFail := by
  intro S xs hS
  constructor
  · intro hneg
    have hbits : ∀ c ∈ bitsOf S xs, c = false := bitsOf_eq_of_sumBit hS fun win hne hsub =>
      decide_eq_false (sum_neg_of_forall_neg hne fun x hx => hneg x (hsub hx)).not_gt
    exact ⟨hbits, refDecode_of_constant_bits hS hbits⟩
  · intro hpos
    have hbits : ∀ c ∈ bitsOf S xs, c = true := bitsOf_eq_of_sumBit hS fun win hne hsub =>
      decide_eq_true (List.sum_pos win (fun x hx => hpos x (hsub hx)) hne)
    exact ⟨hbits, refDecode_of_constant_bits hS hbits⟩

end Sys2Proof.Machine

/-! The frame path family (spec 41_frame_path.md): the byte of a frame (R103), the reference decoder frame by frame (R102, R108, R110), the
completion of a frame (R101 to R104), and the block against the reference decoder (R111). -/

namespace Sys2Proof.Machine

/-! ### The byte of a frame -/

/-- The weighted sum of `n` bits, least significant first, is the number with those bits. -/
theorem sum_toNat_mul_two_pow (n : Nat) (g : Nat → Bool) :
    ((List.range n).map (fun j => (g j).toNat * 2 ^ j)).sum = Nat.ofBits (fun i : Fin n => g i) := by
  induction n generalizing g with
  | zero => rfl
  | succ n ih =>
    have htail : (fun j => (g (j + 1)).toNat * 2 ^ (j + 1)) = fun j => 2 * ((g (j + 1)).toNat * 2 ^ j) := by
      funext j
      rw [pow_succ]
      ring
    rw [Nat.ofBits_succ, List.range_succ_eq_map, List.map_cons, List.map_map, List.sum_cons, Function.comp_def]
    simp only [Nat.succ_eq_add_one, htail, List.sum_map_mul_left, ih fun j => g (j + 1)]
    simp [Function.comp_def, Nat.add_comm]

/-- Bit `j` of the reference decoder's byte is the frame's bit `j + 1` (R103). -/
theorem getLsbD_refByte (F : List Bool) {j : Nat} (hj : j < 8) : (refByte F).getLsbD j = F.getD (j + 1) false := by
  rw [refByte, sum_toNat_mul_two_pow 8 fun j => F.getD (j + 1) false, BitVec.getLsbD_ofNat, Nat.testBit_ofBits_lt _ _ hj]
  simp [hj]

/-- The sum of R103 fits the byte. -/
theorem toNat_refByte (F : List Bool) :
    (refByte F).toNat = ((List.range 8).map (fun j => (F.getD (j + 1) false).toNat * 2 ^ j)).sum := by
  rw [refByte, BitVec.toNat_ofNat, sum_toNat_mul_two_pow 8 fun j => F.getD (j + 1) false]
  exact Nat.mod_eq_of_lt (Nat.ofBits_lt_two_pow _)

/-- The block and the reference decoder take the same byte from the same frame (R103). -/
theorem frameByte_eq_refByte {W : FrameWord} {F : List Bool} (h : ∀ k, k < 10 → W.getLsbD k = F.getD k false) :
    frameByte W = refByte F := by
  refine BitVec.eq_of_getLsbD_eq fun j hj => ?_
  rw [getLsbD_frameByte W j hj, getLsbD_refByte F hj, h (j + 1) (by omega)]

/-- The reference decoder takes back the byte of a synthetic frame (R107). -/
theorem refByte_frameBitsOf (x : Byte) : refByte (frameBitsOf x) = x := by
  refine BitVec.eq_of_getLsbD_eq fun j hj => ?_
  have hlen : j + 1 < (false :: (List.range 8).map x.getLsbD).length := by
    rw [List.length_cons, List.length_map, List.length_range]
    exact Nat.succ_lt_succ hj
  rw [getLsbD_refByte _ hj, frameBitsOf_eq, List.getD_append _ _ _ _ hlen, List.getD_cons_succ]
  simp [hj]

/-- Settles O35: the byte of the block is the reference decoder's, a weighted sum of the same bits. -/
theorem frameByteIsWeightedSum : Obligations.FrameByteIsWeightedSum := by
  intro F
  have hbits (k : Nat) (hk : k < 10) : F.getLsbD k = ((List.range 10).map fun k => F.getLsbD k).getD k false := by
    simp [hk]
  have hbyte := frameByte_eq_refByte hbits
  refine ⟨?_, hbyte⟩
  rw [hbyte, toNat_refByte]
  refine congrArg List.sum (List.map_congr_left fun j hj => ?_)
  have hj8 := List.mem_range.1 hj
  rw [hbits (j + 1) (by omega)]

/-! ### The reference decoder, frame by frame -/

/-- A valid frame adds its byte, and the decoder goes on (R110). -/
theorem decodeFrames_cons_of_valid (msg : List Byte) {F : List Bool} (Fs : List (List Bool)) (h : validFrame F) :
    decodeFrames msg (F :: Fs) = decodeFrames (msg ++ [refByte F]) Fs := by
  obtain ⟨hstart, hstop⟩ := h
  rw [decodeFrames, hstart, hstop]
  rfl

/-- A start bit 1 ends the decode, whatever the stop bit (R102). -/
theorem decodeFrames_cons_of_start (msg : List Byte) {F : List Bool} (Fs : List (List Bool)) (hstart : F.getD 0 false = true) :
    decodeFrames msg (F :: Fs) = (msg, .start) := if_pos hstart

/-- A stop bit 0 behind a start bit 0 ends the decode (R102). -/
theorem decodeFrames_cons_of_stop (msg : List Byte) {F : List Bool} (Fs : List (List Bool)) (hstart : F.getD 0 false = false)
    (hstop : F.getD 9 false = false) : decodeFrames msg (F :: Fs) = (msg, .stop) := by
  rw [decodeFrames, hstart, hstop]
  rfl

/-- Valid frames add their bytes in order, and the decoder goes on with the frames behind them (R108). -/
theorem decodeFrames_append_of_valid (msg : List Byte) {Fs : List (List Bool)} (Gs : List (List Bool))
    (h : ∀ F ∈ Fs, validFrame F) : decodeFrames msg (Fs ++ Gs) = decodeFrames (msg ++ Fs.map refByte) Gs := by
  induction Fs generalizing msg with
  | nil => simp
  | cons F Fs ih =>
    obtain ⟨hF, hFs⟩ := List.forall_mem_cons.1 h
    rw [List.cons_append, decodeFrames_cons_of_valid msg _ hF, ih _ hFs, List.map_cons, List.append_assoc]
    rfl

/-- Settles O37: valid frames add their bytes; the first invalid one, if any, ends the decode. -/
theorem framesBeforeTheFirstInvalidOne : Obligations.FramesBeforeTheFirstInvalidOne := by
  intro bits
  refine ⟨by simp [framesOf], fun hvalid => ?_, fun before after F hframes hbefore => ?_⟩
  · have hall := decodeFrames_append_of_valid [] [] hvalid
    rwa [List.append_nil] at hall
  · have hgood := decodeFrames_append_of_valid [] (F :: after) hbefore
    rw [hframes, hgood]
    exact ⟨decodeFrames_cons_of_start _ after, decodeFrames_cons_of_stop _ after⟩

/-- Settles O36: the ten bits pushed in turn, and the reference decoder on the valid frame they are. -/
theorem syntheticFrameRoundTrip : Obligations.SyntheticFrameRoundTrip := by
  intro b s hf hb
  refine ⟨pushBits_frameBitsOf b hf hb, ?_⟩
  rw [decodeFrames_cons_of_valid [] [] ⟨rfl, rfl⟩, refByte_frameBitsOf]
  rfl

/-- Once the decode has failed, later frames change nothing (R108, 90_conflicts.md C1). -/
theorem decodeFrames_append_of_failed (msg : List Byte) {Fs : List (List Bool)} (Gs : List (List Bool))
    (h : (decodeFrames msg Fs).2 ≠ .ok) : decodeFrames msg (Fs ++ Gs) = decodeFrames msg Fs := by
  induction Fs generalizing msg with
  | nil => exact absurd rfl h
  | cons F Fs ih =>
    rw [List.cons_append]
    cases hstart : F.getD 0 false with
    | true => rw [decodeFrames_cons_of_start msg _ hstart, decodeFrames_cons_of_start msg _ hstart]
    | false =>
      cases hstop : F.getD 9 false with
      | false => rw [decodeFrames_cons_of_stop msg _ hstart hstop, decodeFrames_cons_of_stop msg _ hstart hstop]
      | true =>
        rw [decodeFrames_cons_of_valid msg Fs ⟨hstart, hstop⟩] at h ⊢
        rw [decodeFrames_cons_of_valid msg _ ⟨hstart, hstop⟩, ih _ h]

/-- While the decode has not failed, one more frame is decoded behind the message so far. -/
theorem decodeFrames_concat_of_ok (msg : List Byte) {Fs : List (List Bool)} (F : List Bool) (h : (decodeFrames msg Fs).2 = .ok) :
    decodeFrames msg (Fs ++ [F]) = decodeFrames (decodeFrames msg Fs).1 [F] := by
  have hvalid := (decodeFrames_ok_iff msg Fs).1 h
  have hall := decodeFrames_append_of_valid msg [] hvalid
  rw [List.append_nil] at hall
  rw [hall, decodeFrames_append_of_valid msg [F] hvalid]
  rfl

/-! ### The completion of a frame -/

/-- A start bit 1 enters StartBitError, whatever the stop bit (R102, R142). -/
theorem completeFrame_of_start {F : FrameWord} (s : State) (h0 : F.getLsbD 0 = true) :
    completeFrame F s = { s with fbits := 0#10, bcnt := 0#4, phase := .err, err := .start, out := s.out ++ [.errStart] } := by
  rw [completeFrame, (frameCheck_eq_start_iff F).2 h0]
  rfl

/-- A stop bit 0 behind a start bit 0 enters StopBitError (R102, R142). -/
theorem completeFrame_of_stop {F : FrameWord} (s : State) (h0 : F.getLsbD 0 = false) (h9 : F.getLsbD 9 = false) :
    completeFrame F s = { s with fbits := 0#10, bcnt := 0#4, phase := .err, err := .stop, out := s.out ++ [.errStop] } := by
  rw [completeFrame, (frameCheck_eq_stop_iff F).2 ⟨h0, h9⟩]
  rfl

/-- A valid frame emits and counts its character (R103, R104). -/
theorem completeFrame_of_valid {F : FrameWord} (s : State) (h0 : F.getLsbD 0 = false) (h9 : F.getLsbD 9 = true) :
    completeFrame F s =
      { s with fbits := 0#10, bcnt := 0#4, chars := s.chars + 1#32, out := s.out ++ [.char (frameByte F)] } := by
  rw [completeFrame, (frameCheck_eq_none_iff F).2 ⟨h0, h9⟩]
  rfl

/-- The whole frame's start bit is the one collected first. -/
theorem getLsbD_zero_frameWith_nine (F : FrameWord) (b : Bool) : (frameWith F 9 b).getLsbD 0 = F.getLsbD 0 :=
  getLsbD_frameWith F 9 b (by decide) 0

/-- The whole frame's stop bit is the new one. -/
theorem getLsbD_nine_frameWith_nine (F : FrameWord) (b : Bool) : (frameWith F 9 b).getLsbD 9 = b :=
  getLsbD_frameWith F 9 b (by decide) 9

/-- SAMPLE that completes a frame performs the completion of the frame with the window's bit at position 9 (R84, R101). -/
theorem exec_sample_of_frame_full {s : State} {f : Field} {b : Bool} (hp : s.phase = .run) (hn : s.scnt.toNat + 1 = s.cfgSpb.toNat)
    (hb : s.bcnt.toNat = 9) (hbit : nrzBit (s.acc.toInt + f.toInt) = b) :
    exec (.sample f) s = .next (completeFrame (frameWith s.fbits 9 b) { s with acc := 0#32, scnt := 0#16 }) :=
  hbit ▸ congrArg Host.Outcome.next (sampleState_of_frame_full f hp hn.ge hb.ge)

/-- Settles O15: a positive sum is the stop bit 1, and the data bits are those collected. -/
theorem sampleCompletingValidFrameEmitsChar : Obligations.SampleCompletingValidFrameEmitsChar := by
  intro s f _ hp hn hb hstart hsum
  refine ⟨frameByte (frameWith s.fbits 9 true), fun j hj => ?_, ?_⟩
  · rw [getLsbD_frameByte _ j hj, getLsbD_frameWith _ 9 true (by decide), if_neg (by omega)]
  · rw [exec_sample_of_frame_full hp hn hb (decide_eq_true hsum),
      completeFrame_of_valid _ ((getLsbD_zero_frameWith_nine _ _).trans hstart) (getLsbD_nine_frameWith_nine _ _)]

/-- Settles O16: the start bit is checked before the window's bit, which is the stop bit. -/
theorem sampleCompletingInvalidFrameEntersError : Obligations.SampleCompletingInvalidFrameEntersError := by
  intro s f hinv hp hn hb
  refine ⟨fun hstart => ?_, fun hstart hsum => ?_, fun hstart hsum => ?_⟩
  · rw [exec_sample_of_frame_full hp hn hb rfl, completeFrame_of_start _ ((getLsbD_zero_frameWith_nine _ _).trans hstart)]
  · rw [exec_sample_of_frame_full hp hn hb (decide_eq_false (by omega)),
      completeFrame_of_stop _ ((getLsbD_zero_frameWith_nine _ _).trans hstart) (getLsbD_nine_frameWith_nine _ _)]
  · rw [exec_sample_of_frame_full hp hn hb (decide_eq_true hsum),
      completeFrame_of_valid _ ((getLsbD_zero_frameWith_nine _ _).trans hstart) (getLsbD_nine_frameWith_nine _ _)]
    exact ⟨_, rfl, hp, hinv.err_of_run hp, _, rfl⟩

/-! ### The block against the reference decoder -/

/-- A stream without its EOS has reported the decode `d`: its characters, then the error event of a failure, with `err` and `chars` to
match, behind the output `base` (R111). -/
structure Reports (base : List OutputEvent) (d : List Byte × RefOutcome) (s : State) : Prop where
  err : s.err = d.2.endErr
  chars : s.chars = BitVec.ofNat 32 d.1.length
  out : s.out = base ++ d.1.map OutputEvent.char ++ d.2.errorEvents

/-- What is reported does not depend on the windows and frames under way. -/
theorem Reports.with_position {base : List OutputEvent} {d : List Byte × RefOutcome} {s : State} (h : Reports base d s)
    (acc : BitVec 32) (scnt : BitVec 16) (fbits : FrameWord) (bcnt : BitVec 4) :
    Reports base d { s with acc := acc, scnt := scnt, fbits := fbits, bcnt := bcnt } :=
  ⟨h.err, h.chars, h.out⟩

/-- The completion of a frame reports what the reference decoder gives for the same bits (R101, R110). -/
theorem completeFrame_reports {base : List OutputEvent} {msg : List Byte} {s : State} {W : FrameWord} {F : List Bool}
    (hW : ∀ k, k < 10 → W.getLsbD k = F.getD k false) (h : Reports base (msg, .ok) s) :
    Reports base (decodeFrames msg [F]) (completeFrame W s) := by
  obtain ⟨herr, hchars, hout⟩ := h
  have h0 := hW 0 (by decide)
  have h9 := hW 9 (by decide)
  cases hstart : F.getD 0 false with
  | true =>
    rw [completeFrame_of_start s (h0.trans hstart), decodeFrames_cons_of_start msg [] hstart]
    exact ⟨rfl, hchars, by simp [hout, RefOutcome.errorEvents]⟩
  | false =>
    cases hstop : F.getD 9 false with
    | false =>
      rw [completeFrame_of_stop s (h0.trans hstart) (h9.trans hstop), decodeFrames_cons_of_stop msg [] hstart hstop]
      exact ⟨rfl, hchars, by simp [hout, RefOutcome.errorEvents]⟩
    | true =>
      rw [completeFrame_of_valid s (h0.trans hstart) (h9.trans hstop), decodeFrames_cons_of_valid msg [] ⟨hstart, hstop⟩,
        frameByte_eq_refByte hW, decodeFrames]
      exact ⟨herr, by simp [hchars, BitVec.ofNat_add], by simp [hout, RefOutcome.errorEvents]⟩

/-- With nine bits of a frame collected, the frame word with a tenth has the bits of the stream's next frame (R101). -/
theorem getLsbD_frameWith_of_holdsFrame {bits : List Bool} {s : State} (b : Bool) (h : HoldsFrame bits s) (hb : s.bcnt.toNat = 9)
    {k : Nat} (hk : k < 10) :
    (frameWith s.fbits 9 b).getLsbD k = (bits.drop (10 * (bits.length / 10)) ++ [b]).getD k false := by
  have hpos := h.bcnt
  have hlen : (bits.drop (10 * (bits.length / 10))).length = 9 := by rw [List.length_drop]; omega
  rw [getLsbD_frameWith _ _ _ (by decide)]
  split
  case isTrue heq => rw [heq, List.getD_append_right _ _ _ _ hlen.le, hlen]; rfl
  case isFalse hne =>
    rw [List.getD_append _ _ _ _ (by omega), h.fbits k (by omega)]
    simp

/-- PushBit reports what the reference decoder gives for one bit more. -/
theorem pushBit_reports {base : List OutputEvent} {bits : List Bool} {s : State} (b : Bool) (hframe : HoldsFrame bits s)
    (hok : (decodeFrames [] (framesOf bits)).2 = .ok) (h : Reports base (decodeFrames [] (framesOf bits)) s) :
    Reports base (decodeFrames [] (framesOf (bits ++ [b]))) (pushBit b s) := by
  have hpos := hframe.bcnt
  rcases Nat.lt_or_ge s.bcnt.toNat 9 with hb | hb
  · have e : pushBit b s = { s with fbits := frameWith s.fbits s.bcnt.toNat b, bcnt := s.bcnt + 1#4 } := if_pos hb
    rw [framesOf_eq_chunks, chunks_concat_of_lt bits b (by omega), e]
    exact h.with_position _ _ _ _
  · have e : pushBit b s = completeFrame (frameWith s.fbits 9 b) s := if_neg (Nat.not_lt.2 hb)
    rw [framesOf_eq_chunks, chunks_concat_of_eq bits b (by omega), ← framesOf_eq_chunks, decodeFrames_concat_of_ok [] _ hok, e]
    exact completeFrame_reports (fun k hk => getLsbD_frameWith_of_holdsFrame b hframe (by omega) hk) (hok ▸ h)

/-- A SAMPLE in a stream that has not failed reports what the reference decoder gives for one sample more. -/
theorem sampleState_reports {base : List OutputEvent} {S : BitVec 16} {xs : List Int} {s : State} (f : Field)
    (hstream : HoldsStream S xs s) (hok : (refDecode S.toNat xs).2 = .ok) (h : Reports base (refDecode S.toNat xs) s) :
    Reports base (refDecode S.toNat (xs ++ [f.toInt])) (sampleState f s) := by
  obtain ⟨hinv, rfl, hscnt, hacc, hframe⟩ := hstream
  have hbelow := hinv.scnt_below
  rcases Nat.lt_or_ge (s.scnt.toNat + 1) s.cfgSpb.toNat with hn | hn
  · rw [sampleState_of_window_open f hframe.phase hn, refDecode, bitsOf_concat_of_lt xs f.toInt (hscnt ▸ hn)]
    exact h.with_position _ _ _ _
  · rw [sampleState_of_window_closed f hframe.phase hn, refDecode, bitsOf_concat_of_eq xs f.toInt (by omega), ← hacc]
    exact pushBit_reports _ (hframe.with_window _ _) hok (h.with_position _ _ _ _)

/-- One bit more leaves the complete frames where they are, and completes at most one more. -/
theorem framesOf_concat (bits : List Bool) (b : Bool) : ∃ Gs, framesOf (bits ++ [b]) = framesOf bits ++ Gs := by
  rcases Nat.lt_or_ge (bits.length % 10 + 1) 10 with hlt | hge
  · exact ⟨[], by rw [framesOf_eq_chunks, chunks_concat_of_lt bits b hlt, List.append_nil, framesOf_eq_chunks]⟩
  · exact ⟨_, chunks_concat_of_eq bits b (by omega)⟩

/-- A decode that has failed stays as it is when one more sample comes (R108). -/
theorem refDecode_concat_of_failed {S : Nat} {xs : List Int} (x : Int) (hS : 0 < S) (h : (refDecode S xs).2 ≠ .ok) :
    refDecode S (xs ++ [x]) = refDecode S xs := by
  rcases Nat.lt_or_ge (xs.length % S + 1) S with hlt | hge
  · rw [refDecode, bitsOf_concat_of_lt xs x hlt, refDecode]
  · obtain ⟨Gs, hGs⟩ := framesOf_concat (bitsOf S xs) (nrzBit ((xs.drop (S * (xs.length / S))).sum + x))
    rw [refDecode, bitsOf_concat_of_eq xs x (Nat.le_antisymm (Nat.mod_lt _ hS) hge), hGs]
    exact decodeFrames_append_of_failed [] Gs h

/-- At the start of a stream nothing is reported, and there is nothing to decode. -/
theorem newStream_reports (S : BitVec 16) (s : State) : Reports s.out (refDecode S.toNat []) (newStream S s) := by
  have hbits : bitsOf S.toNat [] = [] := List.length_eq_zero_iff.1 (by simp)
  rw [refDecode, hbits]
  exact ⟨rfl, rfl, by simp [framesOf, decodeFrames, RefOutcome.errorEvents]⟩

/-- A failed decode ends in ERR, with its error as the one event of its outcome (R111). -/
theorem RefOutcome.of_failed {o : RefOutcome} (h : o ≠ .ok) :
    o.endErr ≠ .none ∧ o.endPhase = .err ∧ o.errorEvents = [o.event] := by
  cases o with
  | ok => exact absurd rfl h
  | start => exact ⟨by decide, rfl, rfl⟩
  | stop => exact ⟨by decide, rfl, rfl⟩

/-- A stream whose decode has failed is in ERR. -/
theorem Reports.phase_of_failed {base : List OutputEvent} {d : List Byte × RefOutcome} {s : State} (h : Reports base d s)
    (hinv : s.Inv) (hd : d.2 ≠ .ok) : s.phase = .err :=
  hinv.err_iff_phase.1 (h.err ▸ (RefOutcome.of_failed hd).1)

/-- The samples of a capture, taken one after the other, report what the reference decoder gives for them (R111). -/
theorem takeSamples_reports {S : BitVec 16} {s : State} (hS : S ≠ 0#16) (hstart : StreamStart S s) (xs : List Field) :
    Reports s.out (refDecode S.toNat (sampleValues xs)) (takeSamples xs s) := by
  have hpos : 0 < S.toNat := by bv_omega
  induction xs using List.reverseRecOn with
  | nil =>
    have hnew := newStream_reports S s
    rwa [hstart.newStream_eq_self] at hnew
  | append_singleton xs f ih =>
    have hvalues : sampleValues (xs ++ [f]) = sampleValues xs ++ [f.toInt] := by simp [sampleValues]
    rw [hvalues, takeSamples_concat]
    by_cases hok : (refDecode S.toNat (sampleValues xs)).2 = .ok
    case pos => exact sampleState_reports f (takeSamples_holdsStream hS hstart xs ((decodeFrames_ok_iff [] _).1 hok)) hok ih
    case neg =>
      have hinv := takeSamples_inv xs (holdsStream_nil hS hstart).inv
      rw [refDecode_concat_of_failed f.toInt hpos hok, sampleState_ended f _ (by simp [ih.phase_of_failed hinv hok])]
      exact ih

/-- Samples leave `cfg_spb` and the input to come alone. -/
theorem takeSamples_cfgSpb_input (xs : List Field) (s : State) :
    (takeSamples xs s).cfgSpb = s.cfgSpb ∧ (takeSamples xs s).input = s.input := by
  induction xs generalizing s with
  | nil => exact ⟨rfl, rfl⟩
  | cons f xs ih =>
    obtain ⟨hcfg, -, hinput, -⟩ := sampleState_frame f s
    obtain ⟨ihcfg, ihinput⟩ := ih (sampleState f s)
    exact ⟨ihcfg.trans hcfg, ihinput.trans hinput⟩

/-- EOS ends the report: DONE behind the characters of a decode without error; a failed one already has its one error event (R111, R121). -/
theorem eosState_of_reports {base : List OutputEvent} {d : List Byte × RefOutcome} {s : State} (h : Reports base d s) (hinv : s.Inv)
    (hrun : d.2 = .ok → s.phase = .run) :
    eosState s = { s with acc := 0#32, scnt := 0#16, fbits := 0#10, bcnt := 0#4, phase := d.2.endPhase,
                          out := base ++ d.1.map OutputEvent.char ++ [d.2.event] } := by
  by_cases hok : d.2 = .ok
  · rw [eosState_run s (hrun hok), h.out, hok]
    simp [RefOutcome.errorEvents, RefOutcome.endPhase, RefOutcome.event]
  · have hp := h.phase_of_failed hinv hok
    obtain ⟨-, hphase, hevents⟩ := RefOutcome.of_failed hok
    have hout := h.out
    obtain ⟨hacc, hscnt, hfbits, hbcnt⟩ := hinv.ended_empty (by simp [hp])
    rw [eosState_ended s (by simp [hp]), hphase, ← hevents, ← hout, ← hacc, ← hscnt, ← hfbits, ← hbcnt, ← hp]

/-- Settles O38: a run takes the samples, which report the decode; EOS then adds DONE or is ignored, by the outcome. -/
theorem blockMatchesReferenceDecoder : Obligations.BlockMatchesReferenceDecoder := by
  intro S s xs f hS hstart
  have hr := hstart.refused_eq_false
  have hbegin := holdsStream_nil hS hstart
  have hreports := takeSamples_reports hS hstart xs
  have heos := eosState_of_reports hreports (takeSamples_inv xs hbegin.inv) fun hok =>
    (takeSamples_holdsStream hS hstart xs ((decodeFrames_ok_iff [] _).1 hok)).frame.phase
  obtain ⟨hcfg, hinput⟩ := takeSamples_cfgSpb_input xs s
  refine ⟨⟨_, run_sampleInstrs xs hr, hreports.out⟩, _, run_sampleInstrs_eos xs f hr, ?_⟩
  rw [heos]
  exact ⟨rfl, rfl, hreports.err, hreports.chars, rfl, rfl, rfl, rfl, hcfg.trans hbegin.cfgSpb,
    (takeSamples_refused xs s).trans hr, hinput⟩

end Sys2Proof.Machine

/-! The control family (spec 42_control.md): which presentation a step takes (R120), EOS and CLEAR (R121, R122), the transitions of
`phase` (R124), and the result of a run (R126). -/

namespace Sys2Proof.Machine

/-! ### The presentation a step takes -/

/-- Presentations that are no step are passed over, however many there are. -/
theorem nextPresented_idle_append {idle : List InputPins} (ps : List InputPins)
    (h : ∀ p ∈ idle, p.rst = false ∧ p.inValid = false) : nextPresented (idle ++ ps) = nextPresented ps := by
  induction idle with
  | nil => rfl
  | cons p idle ih =>
    obtain ⟨⟨hrst, hvalid⟩, hrest⟩ := List.forall_mem_cons.1 h
    rw [List.cons_append, nextPresented_cons_idle p _ (by simp [InputPins.isStep, hrst, hvalid]), ih hrest]

/-- Of the input, a step sees only the first presentation that is a step and what follows it. -/
theorem step_eq_of_nextPresented {s : State} {ps : List InputPins} (h : nextPresented s.input = nextPresented ps) :
    step s = step { s with input := ps } := by
  have hfetch : fetch s = fetch { s with input := ps } := by
    rw [fetch, fetch, h]
  rw [step, step, hfetch]

/-- Where no presentation that is a step is to come, there is no step to make (R120). -/
theorem step_of_nothingPresented {s : State} (hr : s.refused = false) (h : nextPresented s.input = none) :
    step s = .refused .nothingPresented := by
  rw [step, fetch_eq s hr, h]

/-- The step of a word presented next is the transaction it decodes to (R120). -/
theorem step_presentWord {s : State} {w : InWord} {rest : List InputPins} (hr : s.refused = false)
    (hi : s.input = presentWord w :: rest) : step s = exec (decode w) { s with input := rest } := by
  rw [step, fetch_presentWord s w rest hr hi]

/-- Settles O9: an idle presentation is passed over, and where there are only such, nothing is presented. -/
theorem idlePortsAreNoStep : Obligations.IdlePortsAreNoStep := by
  refine ⟨fun s w rest hi => step_eq_of_nextPresented ?_, fun s hr hidle => step_of_nothingPresented hr ?_⟩
  · rw [hi, nextPresented_cons_idle _ _ rfl]
  · rw [← List.append_nil s.input]
    exact nextPresented_idle_append [] hidle

/-- Settles O7: the idle presentations are passed over, and then the word is the next one. -/
theorem stepRunsPresentedTransaction : Obligations.StepRunsPresentedTransaction := by
  intro s idle rest w hr hidle hi
  have hnext : nextPresented s.input = nextPresented (presentWord w :: rest) := by
    rw [hi]
    exact nextPresented_idle_append _ hidle
  exact (step_eq_of_nextPresented hnext).trans (step_presentWord hr rfl)

/-! ### A word placed as the opcode table numbers it -/

theorem tableWord_of_lt {nbits w : Nat} (h : w % 2 ^ nbits < 2 ^ 18) :
    tableWord nbits w = .ok (BitVec.ofNat 18 (w % 2 ^ nbits)) := if_pos h

theorem tableWord_of_le {nbits w : Nat} (h : 2 ^ 18 ≤ w % 2 ^ nbits) : tableWord nbits w = .error .widerThanPort :=
  if_neg (Nat.not_lt.2 h)

/-- Settles O4: a number that fits the port is presented before the input to come; one that does not leaves nothing presented. -/
theorem placedTableWordRunsNext : Obligations.PlacedTableWordRunsNext := by
  intro s nbits w hr
  refine ⟨fun h => ?_, fun h => ?_⟩
  · rw [decodeTableWord, State.withFetchWord, presentTableWord, tableWord_of_lt h]
    exact ⟨rfl, step_presentWord hr rfl⟩
  · rw [decodeTableWord, State.withFetchWord, presentTableWord, tableWord_of_le h]
    exact ⟨rfl, step_of_nothingPresented hr rfl⟩

/-! ### EOS and CLEAR -/

/-- Settles O19: the two cases of EOS, by the phase. -/
theorem eosEndsTheStream : Obligations.EosEndsTheStream := fun s _ =>
  ⟨fun hp => congrArg Host.Outcome.next (eosState_run s hp), fun hp => congrArg Host.Outcome.next (eosState_ended s hp)⟩

/-- CLEAR with the samplesPerBit in force leaves it in force, also where it is 0 (R122). -/
theorem clearSpb_cfgSpb (s : State) : clearSpb s.cfgSpb s = s.cfgSpb := by
  by_cases h : s.cfgSpb = 0#16
  · rw [h, clearSpb_zero, h]
  · exact clearSpb_of_ne_zero s.cfgSpb s h

/-- CLEAR starts a new stream at the samplesPerBit it leaves in force (R122). -/
theorem exec_clear {f : Field} {s : State} {spb : BitVec 16} (h : clearSpb f s = spb) :
    exec (.clear f) s = .next (newStream spb s) := h ▸ rfl

/-- Settles O20: a new stream at the field where it is not 0, else at `cfg_spb`. -/
theorem clearStartsNewStream : Obligations.ClearStartsNewStream := by
  intro s n
  have hkeep := exec_clear (clearSpb_zero s)
  refine ⟨fun hn => ?_, hkeep, (exec_clear (clearSpb_cfgSpb s)).trans hkeep.symm⟩
  have hload := exec_clear (clearSpb_of_ne_zero n s hn)
  exact ⟨hload, hload⟩

/-! ### The transitions of `phase` -/

/-- A SAMPLE in RUN that completes no frame stays in RUN and emits nothing (R124). -/
theorem sampleState_of_no_frame_completed {s : State} (f : Field) (hp : s.phase = .run)
    (h : s.scnt.toNat + 1 < s.cfgSpb.toNat ∨ s.bcnt.toNat < 9) :
    (sampleState f s).phase = .run ∧ (sampleState f s).err = s.err ∧ (sampleState f s).out = s.out := by
  rcases Nat.lt_or_ge (s.scnt.toNat + 1) s.cfgSpb.toNat with hn | hn
  · rw [sampleState_of_window_open f hp hn]
    exact ⟨hp, rfl, rfl⟩
  · rw [sampleState_of_frame_open f hp hn (h.resolve_left (Nat.not_lt.2 hn))]
    exact ⟨hp, rfl, rfl⟩

/-- Settles O21, transaction by transaction; a SAMPLE that completes a frame goes by its start bit, then by the window's bit, which is the
stop bit. -/
theorem phaseMovesOnlyOnItsTransitions : Obligations.PhaseMovesOnlyOnItsTransitions := by
  refine ⟨fun s f hp => ⟨sampleState f s, rfl, sampleState_of_no_frame_completed f hp, ?start, ?stop, ?char⟩,
    fun s f hp => ⟨eosState s, rfl, ?eos⟩, fun s f hp => ?ended, fun s f => ⟨_, rfl, rfl, rfl⟩, fun s => ⟨rfl, rfl⟩⟩
  case start =>
    intro hn hb hstart
    rw [sampleState_of_frame_full f hp hn hb, completeFrame_of_start _ ((getLsbD_zero_frameWith_nine _ _).trans hstart)]
    exact ⟨rfl, rfl, rfl⟩
  case stop =>
    intro hn hb hstart hsum
    have hbit : nrzBit (s.acc.toInt + f.toInt) = false := decide_eq_false (Int.not_lt.2 hsum)
    rw [sampleState_of_frame_full f hp hn hb, completeFrame_of_stop _ ((getLsbD_zero_frameWith_nine _ _).trans hstart)
      ((getLsbD_nine_frameWith_nine _ _).trans hbit)]
    exact ⟨rfl, rfl, rfl⟩
  case char =>
    intro hn hb hstart hsum
    have hbit : nrzBit (s.acc.toInt + f.toInt) = true := decide_eq_true hsum
    rw [sampleState_of_frame_full f hp hn hb, completeFrame_of_valid _ ((getLsbD_zero_frameWith_nine _ _).trans hstart)
      ((getLsbD_nine_frameWith_nine _ _).trans hbit)]
    exact ⟨hp, rfl, _, rfl⟩
  case eos =>
    rw [eosState_run s hp]
    exact ⟨rfl, rfl⟩
  case ended =>
    have hne : s.phase ≠ .run := by rcases hp with h | h <;> simp [h]
    exact ⟨congrArg Host.Outcome.next (sampleState_ended f s hne), congrArg Host.Outcome.next (eosState_ended s hne)⟩

/-! ### Runs of presented transactions, whatever comes after them -/

/-- A transaction that answers a next state leaves the input and the mark alone, and with another input to come it does the same. -/
theorem exec_next_with_input {i : Instr} {s u : State} (h : exec i s = .next u) :
    u.input = s.input ∧ u.refused = s.refused ∧
      ∀ ps : List InputPins, exec i { s with input := ps } = .next { u with input := ps } := by
  rcases exec_cases i s with ⟨f, rfl, e⟩ | ⟨f, rfl, e⟩ | ⟨f, rfl, e⟩ | ⟨f, rfl, e⟩ <;> cases e.symm.trans h
  · obtain ⟨-, hmark, hinput, -⟩ := sampleState_frame f s
    exact ⟨hinput, hmark, fun ps => congrArg Host.Outcome.next (sampleState_input f s ps)⟩
  · obtain ⟨-, -, -, hmark, hinput, -⟩ := eosState_frame s
    exact ⟨hinput, hmark, fun ps => congrArg Host.Outcome.next (eosState_input s ps)⟩
  · exact ⟨rfl, rfl, fun _ => rfl⟩

/-- A run of as many steps as there are transactions presented takes just these: it does the same whatever comes after them. -/
theorem run_presentAll_with_input (is : List Instr) {s t : State} (hr : s.refused = false)
    (hrun : core.run is.length (presentAll is s) = .next t) (ps : List InputPins) :
    core.run is.length (presentAll is { s with input := ps }) = .next { t with input := ps } := by
  induction is generalizing s with
  | nil =>
    cases hrun
    rfl
  | cons i is ih =>
    obtain ⟨u, hstep, hrest⟩ := run_succ_next is.length _ t hrun
    rw [step_presentAll_cons i is hr] at hstep
    obtain ⟨hinput, hmark, hexec⟩ := exec_next_with_input hstep
    have hu : presentAll is { u with input := s.input } = u := congrArg (fun qs => { u with input := qs }) hinput.symm
    have hstep' : step (presentAll (i :: is) { s with input := ps }) = .next (presentAll is { u with input := ps }) :=
      (step_presentAll_cons i is (s := { s with input := ps }) hr).trans (hexec (is.map present ++ ps))
    rw [← hu] at hrest
    exact (run_succ is.length _ _ hstep').trans (ih (s := { u with input := s.input }) (hmark.trans hr) hrest)

/-- A run that begins with a loading CLEAR goes on from a new stream (R122). -/
theorem run_presentAll_clear {n : Field} (is : List Instr) {s : State} (hn : n ≠ 0#16) (hr : s.refused = false) :
    core.run (is.length + 1) (presentAll (.clear n :: is) s) = core.run is.length (presentAll is (newStream n s)) :=
  run_succ is.length _ _ ((step_presentAll_cons (.clear n) is hr).trans (exec_clear (clearSpb_of_ne_zero n _ hn)))

/-- Settles O27: from both states the run goes on from a new stream, where all registers are equal; what was emitted before plays no part
in it (O26), and no more does what is presented after it. -/
theorem runAfterClearForgetsThePast : Obligations.RunAfterClearForgetsThePast := by
  intro n is s s' t hn hr hr' hrun
  rw [run_presentAll_clear is hn hr] at hrun
  rw [run_presentAll_clear is hn hr']
  have hrun' := run_presentAll_with_input is (s := newStream n s) hr hrun s'.input
  have hsame : SameRegisters (presentAll is { newStream n s with input := s'.input }) (presentAll is (newStream n s')) :=
    ⟨rfl, rfl, rfl, rfl, rfl, rfl, rfl, rfl⟩
  obtain ⟨t', evs, ht', ⟨hcfg, hphase, herr, hacc, hscnt, hfbits, hbcnt, hchars⟩, -, hout, hout'⟩ :=
    runDependsOnlyOnRegistersAndInput is.length _ _ _ hsame (hr.trans hr'.symm) rfl hrun'
  exact ⟨t', evs, ht', ⟨hcfg, hphase, herr, hacc, hscnt, hfbits, hbcnt, hchars⟩, hout, hout'⟩

/-! ### The result of a run -/

/-- The result of a run whose reference decode has the given outcome and message (R126). -/
def RefOutcome.runResult (msg : List Byte) : RefOutcome → RunResult
  | .ok => .success msg
  | .start => .startBitError msg
  | .stop => .stopBitError msg

/-- The Message of the characters of `msg` and the event that ends the run is `msg`. -/
theorem messageOf_chars_event (msg : List Byte) (o : RefOutcome) :
    messageOf (msg.map OutputEvent.char ++ [o.event]) = msg := by
  have hchars : messageOf (msg.map OutputEvent.char) = msg := by
    rw [messageOf, List.filterMap_map]
    exact List.filterMap_some
  have hevent : messageOf [o.event] = [] := by cases o <;> rfl
  rw [messageOf, List.filterMap_append, ← messageOf, ← messageOf, hchars, hevent, List.append_nil]

/-- A run that has emitted the characters of `msg` and then the event of an outcome has that outcome's result. -/
theorem runResult_of_out {s t : State} {msg : List Byte} {o : RefOutcome} (hr : t.refused = false)
    (hout : t.out = s.out ++ msg.map OutputEvent.char ++ [o.event]) : runResult s t = some (o.runResult msg) := by
  have hevents : eventsBetween s t = msg.map OutputEvent.char ++ [o.event] := by
    rw [eventsBetween, hout, List.append_assoc, List.drop_left]
  rw [runResult, hr, hevents, messageOf_chars_event, List.getLast?_concat]
  cases o <;> rfl

/-- No outcome of the reference decoder leaves the run in RUN (R111). -/
theorem RefOutcome.endPhase_ne_run (o : RefOutcome) : o.endPhase ≠ .run := by
  cases o <;> decide

/-- Settles O39: by O38 the run emits the decoded message and the event of its outcome, from which its result is read. -/
theorem runResultIsTheDecodedMessage : Obligations.RunResultIsTheDecodedMessage := by
  intro S s t xs f msg o hS hstart hdecode hrun
  obtain ⟨-, t', hrun', hout, hphase, -, -, -, -, -, -, -, hr, -⟩ := blockMatchesReferenceDecoder S s xs f hS hstart
  cases hrun.symm.trans hrun'
  rw [hdecode] at hout hphase
  have hresult := runResult_of_out hr hout
  refine ⟨decide_eq_true (hphase ▸ o.endPhase_ne_run), ?_, ?_, ?_⟩ <;> rintro rfl <;> exact hresult

end Sys2Proof.Machine

/-! The exception family (spec 60_exceptions.md): nothing follows the end of a run (R145). -/

namespace Sys2Proof.Machine

/-- In an ended run SAMPLE and EOS are ignored (R124). -/
theorem exec_of_ended {i : Instr} {s : State} (hp : s.phase ≠ .run) (hi : (∃ f, i = .sample f) ∨ (∃ f, i = .eos f)) :
    exec i s = .next s := by
  rcases hi with ⟨f, rfl⟩ | ⟨f, rfl⟩
  · exact congrArg Host.Outcome.next (sampleState_ended f s hp)
  · exact congrArg Host.Outcome.next (eosState_ended s hp)

/-- Settles O23, by induction on the transactions: the step of each one leaves the state with the rest to come. -/
theorem nothingFollowsTheEndOfARun : Obligations.NothingFollowsTheEndOfARun := by
  intro is s hr hp his
  induction is with
  | nil => rfl
  | cons i is ih =>
    obtain ⟨hi, hrest⟩ := List.forall_mem_cons.1 his
    have hstep : step (presentAll (i :: is) s) = .next (presentAll is s) :=
      (step_presentAll_cons i is hr).trans (exec_of_ended (s := presentAll is s) hp hi)
    exact (run_succ is.length _ _ hstep).trans (ih hrest)

end Sys2Proof.Machine

/-! The reset family (spec 70_reset_and_hazards.md): the reset step (R160), and that every presented transaction completes while the host
keeps its first duty (R164, R170). -/

namespace Sys2Proof.Machine

/-! ### The step of the next presentation -/

/-- With `rst` high in the next presentation, the step is the reset step (R143, R160). -/
theorem step_of_rst {s : State} {p : InputPins} {rest : List InputPins} (hr : s.refused = false)
    (hnext : nextPresented s.input = some (p, rest)) (hrst : p.rst = true) :
    step s = .next (powerOnReset { s with input := rest }) := by
  simp only [step, fetch_eq s hr, hnext, hrst, if_true]

/-- With `rst` low in the next presentation, the step is its transaction (R120). -/
theorem step_of_transaction {s : State} {p : InputPins} {rest : List InputPins} (hr : s.refused = false)
    (hnext : nextPresented s.input = some (p, rest)) (hrst : p.rst = false) :
    step s = exec (decode p.inWord) { s with input := rest } := by
  simp only [step, fetch_eq s hr, hnext, hrst, Bool.false_eq_true, if_false]

/-- After the reset step STATUS reads 0 (R67, R160). -/
theorem statusView_powerOnReset (s : State) : statusView (powerOnReset s) = 0x0000#16 := by
  simp only [statusView, powerOnReset_bcnt, powerOnReset_err, powerOnReset_phase]
  decide

/-- Settles O8: a presentation with `rst` high is the next step whatever else it drives, and the step is the reset step. -/
theorem resetStepLoadsResetValues : Obligations.ResetStepLoadsResetValues := by
  refine ⟨⟨spbReset_pos, Nat.le_of_lt_succ Config.spbReset.isLt⟩, fun s v w rest hr hi => ?_⟩
  have hnext : nextPresented s.input = some ({ rst := true, inValid := v, inWord := w }, rest) :=
    hi ▸ nextPresented_cons_step _ rest rfl
  exact ⟨powerOnReset { s with input := rest }, step_of_rst hr hnext rfl, rfl, statusView_powerOnReset _, rfl, rfl⟩

/-! ### The host's first duty -/

/-- Where a presentation that is a step is to come, a next one is found. -/
theorem exists_nextPresented {ps : List InputPins} (h : ∃ p ∈ ps, p.isStep = true) :
    ∃ p rest, nextPresented ps = some (p, rest) := by
  induction ps with
  | nil => simp at h
  | cons q qs ih =>
    cases hq : q.isStep with
    | true => exact ⟨q, qs, nextPresented_cons_step q qs hq⟩
    | false =>
      rw [nextPresented_cons_idle q qs hq]
      exact ih (by simpa [hq] using h)

/-- A host that keeps its duty keeps it in the next presentation, where a transaction is not the reserved one, and in what follows
(R170). -/
theorem keepsDuty_of_nextPresented {ps : List InputPins} {p : InputPins} {rest : List InputPins} (h : keepsDuty ps = true)
    (hnext : nextPresented ps = some (p, rest)) : (p.rst = false → (decode p.inWord).wf = true) ∧ keepsDuty rest = true := by
  obtain ⟨hstep, idle, rfl, -⟩ := nextPresented_some ps p rest hnext
  simp only [keepsDuty, List.all_append, List.all_cons, Bool.and_eq_true] at h
  obtain ⟨-, hp, hrest⟩ := h
  refine ⟨fun hrst => ?_, hrest⟩
  have hvalid : p.inValid = true := by simpa [InputPins.isStep, hrst] using hstep
  simpa [hrst, hvalid] using hp

/-- A transaction that is not the reserved one answers a next state (R164). -/
theorem exec_of_wf {i : Instr} (s : State) (h : i.wf = true) : ∃ t, exec i s = .next t := by
  rcases exec_cases i s with ⟨f, -, e⟩ | ⟨f, -, e⟩ | ⟨f, -, e⟩ | ⟨f, rfl, -⟩
  · exact ⟨_, e⟩
  · exact ⟨_, e⟩
  · exact ⟨_, e⟩
  · simp [Instr.wf] at h

/-- Settles O11: by the duty, the next presentation is the reset step or a transaction that completes, and both leave what follows it to
come. -/
theorem presentedTransactionCompletes : Obligations.PresentedTransactionCompletes := by
  intro s hr hduty hcoming
  obtain ⟨p, rest, hnext⟩ := exists_nextPresented hcoming
  obtain ⟨hwf, hrest⟩ := keepsDuty_of_nextPresented hduty hnext
  cases hrst : p.rst with
  | true => exact ⟨_, step_of_rst hr hnext hrst, hr, hrest⟩
  | false =>
    obtain ⟨t, hexec⟩ := exec_of_wf { s with input := rest } (hwf hrst)
    obtain ⟨hinput, hmark, -⟩ := exec_next_with_input hexec
    exact ⟨t, (step_of_transaction hr hnext hrst).trans hexec, hmark.trans hr, hinput ▸ hrest⟩

end Sys2Proof.Machine
